-- ==== Sys2Proof/Word.lean ====
section
/-! DEFINITION. Bytes and words. -/

namespace Sys2Proof

/-- A byte, a value in `u_8` (R23). -/
abbrev Byte := BitVec 8

/-- A word of the engine: an unsigned integer, kept below `2 ^ wb` by the rules that write it (R10, R21).
The width `wb = 8 * W` is a parameter of the configuration, and R22 makes word arithmetic exact integer
arithmetic that a rule truncates explicitly, so a word is a natural number here. DESIGN CHOICE, log 6. -/
abbrev Word := Nat

end Sys2Proof
end

