-- ==== Sys2Proof/Syntax.lean ====
section
/-! DEFINITION. The command set: one constructor for each row of spec/opcode_table.json (R81, R88). -/

namespace Sys2Proof

/-- A command of the engine. A command word carries no operands and no immediate: `update` takes `src` and `len`, and
`finalize` takes `dst`, from the interface registers at the `CMD` write (R83), so no constructor has a field. -/
inductive Instr where
  /-- `INIT`, word `0x00000001` (R100). -/
  | init
  /-- `UPDATE`, word `0x00000002` (R110). -/
  | update
  /-- `FINALIZE`, word `0x00000003` (R140). -/
  | finalize
deriving DecidableEq, Repr

end Sys2Proof
end

