-- ==== Sys2Proof/Decode.lean ====
section
/-! DEFINITION. The command word: decoding, total on all 32-bit words (R85), and the encoder (R81). -/

namespace Sys2Proof

/-- Why a word is no command. R85 has the one answer `ILLEGAL`; the two names say which part of R82 applies. -/
inductive DecodeError where
  /-- The reserved field `RSV = c[31:4]` is not 0 (R80, R82). -/
  | reservedField
  /-- `OP = c[3:0]` is `0x0` or `0x4` to `0xF` (R81, R82). -/
  | reservedOp
deriving DecidableEq, Repr

/-- `OP = c[3:0]` (R80). -/
def opField (c : BitVec 32) : BitVec 4 := c.extractLsb' 0 4

/-- `RSV = c[31:4]` (R80). -/
def rsvField (c : BitVec 32) : BitVec 28 := c.extractLsb' 4 28

/-- `decode` of R85. -/
def decode (c : BitVec 32) : Except DecodeError Instr :=
  if rsvField c ≠ 0 then .error .reservedField
  else if opField c = 0x1 then .ok .init
  else if opField c = 0x2 then .ok .update
  else if opField c = 0x3 then .ok .finalize
  else .error .reservedOp

/-- The `OP` value of a command (R81). -/
def opOf : Instr → BitVec 4
  | .init => 0x1
  | .update => 0x2
  | .finalize => 0x3

/-- The command word: `RSV = 0` above `OP` (R80, R81). -/
def encode (i : Instr) : BitVec 32 := (0 : BitVec 28) ++ opOf i

/-- The command that the decoder reads from the `nbits` bits `w` of a word: the table's rows are 32 bits (R80), bits
above `nbits` are 0, and a number that does not fit in one 32-bit `CMD` write is no command (R84). -/
def decodeTableWord (nbits w : Nat) : Option Instr :=
  let v := w % 2 ^ nbits
  if v < 2 ^ 32 then (decode (BitVec.ofNat 32 v)).toOption else none

end Sys2Proof
end

