-- ==== Sys2Proof/Config.lean ====
section
/-! DEFINITION. The configuration of the engine (R20) and the model's free values (R25, R17). -/

namespace Sys2Proof

/-- `ORDER`, the transform's required byte order (R14). -/
inductive ByteOrder where
  /-- `LE`: the least significant byte of a word at the lowest offset. -/
  | le
  /-- `BE`: the most significant byte at the lowest offset. -/
  | be
deriving DecidableEq, Repr

/-- The host addresses `lo, …, hi - 1`. -/
structure AddrRange where
  lo : Nat
  hi : Nat
deriving DecidableEq, Repr

/-- A set of host addresses (R19), as the list of its maximal ranges in rising order. Every set of addresses below
`2 ^ AW` is such a list, exactly one. DESIGN CHOICE, log 14. -/
abbrev AddrSet := List AddrRange

/-- The block transform `T` a configuration is bound to (R17), by name: a state is plain data and holds no function.
`other n` is any transform at all, for every `n`: it is evaluated by the uninterpreted `Config.transformWord`.
`toyA` and `toyB` are the test devices of 95_test_vectors.md §2. DESIGN CHOICE, log 3. -/
inductive Transform where
  | toyA
  | toyB
  | other (n : Nat)
deriving DecidableEq, Repr

/-- A configuration: the tuple `(W, B, H, ORDER, OFFSET, IV, T, AW, LW, Readable, Writable, BASE)` of R20, in the
spec's own names. Which configurations have a machine is `Config.wf` (WellFormed.lean). -/
structure Config where
  /-- Native word size in bytes (R10). -/
  W : Nat
  /-- BlockSize, bytes per transform call (R11, R12). -/
  B : Nat
  /-- HashSize, digest size in bytes (R13). -/
  H : Nat
  /-- Required byte order (R14). -/
  order : ByteOrder
  /-- `wordOffset` of the length field (R15). -/
  offset : Nat
  /-- Initial accumulator value (R16). -/
  iv : List Word
  /-- The block transform (R17). -/
  T : Transform
  /-- Host address width in bits (R18). -/
  AW : Nat
  /-- Width of the length operand in bits (R18). -/
  LW : Nat
  /-- Host addresses the engine may read (R19). -/
  readable : AddrSet
  /-- Host addresses the engine may write (R19). -/
  writable : AddrSet
  /-- Host address of interface register offset 0 (R19). -/
  base : Nat
deriving DecidableEq, Repr

/-- The transform named `other n`: word `i` of the new accumulator, from the old accumulator and the word view of one
block. Uninterpreted: R17 assumes nothing of `T` except that its result depends on its two arguments alone. Log 3. -/
opaque Config.transformWord : (n : Nat) → (acc view : List Word) → (i : Nat) → Word

/-- Free byte `i` of draw `d`: the value of a byte the spec calls unspecified (R25). Log 4. -/
opaque Config.freeByte : (d i : Nat) → Byte

/-- Free word `i` of draw `d`: the value of a word the spec calls unspecified (R25). Log 4. -/
opaque Config.freeWord : (d i : Nat) → Word

end Sys2Proof
end

