-- ==== Sys2Proof/Machine/Params.lean ====
section
/-! DEFINITION. The parameters derived from a configuration (00_scope.md §4), address sets, the transform as a function
into accumulators, the free draws, and the spec's two test configurations (95_test_vectors.md §2). -/

namespace Sys2Proof

/-- `wb = 8*W`, the word width in bits (R10). -/
def Config.wb (c : Config) : Nat := 8 * c.W

/-- `NW = B / W`, words per block (R11). -/
def Config.nw (c : Config) : Nat := c.B / c.W

/-- `NH = H / W`, accumulator words (R13). -/
def Config.nh (c : Config) : Nat := c.H / c.W

/-- `L = B - 2*W`, the byte offset where the length field starts (42_finalize.md). -/
def Config.lenField (c : Config) : Nat := c.B - 2 * c.W

/-- The word slot of the low bit-count word (R15, R146). PRESUMED in the spec itself (G1), log 16. -/
def Config.loSlot (c : Config) : Nat := c.nw - 2 + c.offset

/-- The word slot of the high bit-count word (R15, R146). PRESUMED in the spec itself (G1), log 16. -/
def Config.hiSlot (c : Config) : Nat := c.nw - 1 - c.offset

/-- Is the address in the set? -/
def AddrSet.has (S : AddrSet) (a : Nat) : Bool :=
  S.any fun r => decide (r.lo ≤ a ∧ a < r.hi)

/-- Is every one of the `n` addresses from `a` in the set? A set is listed by its maximal ranges, so a span that is
not empty lies in the set when one range holds all of it (`AddrSet.hasSpan_iff`, Laws/AddrSet.lean). -/
def AddrSet.hasSpan (S : AddrSet) (a n : Nat) : Bool :=
  n == 0 || S.any fun r => decide (r.lo ≤ a ∧ a + n ≤ r.hi)

/-- The canonical form of an address set: no range is empty, and each starts beyond the end of the one before it, with
a gap. -/
def AddrSet.canonical : AddrSet → Bool
  | [] => true
  | [r] => decide (r.lo < r.hi)
  | r :: r' :: S => decide (r.lo < r.hi) && decide (r.hi < r'.lo) && AddrSet.canonical (r' :: S)

/-- Word `i` of what the transform gives, before it is cut to a word. `T_A` and `T_B` are 95_test_vectors.md §2. -/
def Transform.word (t : Transform) (acc view : List Word) (i : Nat) : Nat :=
  match t, i with
  | .toyA, 0 => 2 * acc.getD 0 0 + view.sum
  | .toyB, 0 => acc.getD 0 0 + view.sum
  | .toyA, 1 | .toyB, 1 => acc.getD 1 0 + 1
  | .toyA, _ | .toyB, _ => 0
  | .other n, i => Config.transformWord n acc view i

/-- The block transform as R17 types it: from an accumulator and a word view to an accumulator, `NH` words of `wb`
bits. -/
def Config.applyT (c : Config) (acc view : List Word) : List Word :=
  (List.range c.nh).map fun i => c.T.word acc view i % 2 ^ c.wb

/-- Draw `d` of an unspecified `PEND`: `B` free bytes (R25). -/
def Config.freePend (c : Config) (d : Nat) : List Byte :=
  (List.range c.B).map (Config.freeByte d)

/-- Draw `d` of an unspecified `ACC`: `NH` free words of `wb` bits (R25). -/
def Config.freeAcc (c : Config) (d : Nat) : List Word :=
  (List.range c.nh).map fun i => Config.freeWord d i % 2 ^ c.wb

/-- Draw `d` of an unspecified `CNT_LO` (R25). -/
def Config.freeCntLo (c : Config) (d : Nat) : Word := Config.freeWord d c.nh % 2 ^ c.wb

/-- Draw `d` of an unspecified `CNT_HI` (R25). -/
def Config.freeCntHi (c : Config) (d : Nat) : Word := Config.freeWord d (c.nh + 1) % 2 ^ c.wb

/-- Configuration TOY-A (95_test_vectors.md §2). -/
def Config.toyA : Config where
  W := 1
  B := 4
  H := 2
  order := .le
  offset := 0
  iv := [0x01, 0x02]
  T := .toyA
  AW := 16
  LW := 16
  readable := [⟨0x0000, 0xF000⟩]
  writable := [⟨0x0000, 0xF000⟩]
  base := 0xF000

/-- Configuration TOY-B (95_test_vectors.md §2). -/
def Config.toyB : Config where
  W := 2
  B := 8
  H := 4
  order := .be
  offset := 1
  iv := [0x0001, 0x0002]
  T := .toyB
  AW := 16
  LW := 16
  readable := [⟨0x0000, 0xF000⟩]
  writable := [⟨0x0000, 0xF000⟩]
  base := 0xF000

end Sys2Proof
end

