-- ==== Sys2Proof/WellFormed.lean ====
section
/-! DEFINITION. Well-formedness of a configuration (R20) and of a command. A refused configuration has no machine: the
step refuses it by name. -/

namespace Sys2Proof

/-- `b` is a power of two (R11). -/
def isPowerOfTwo (b : Nat) : Bool := b == 2 ^ b.log2

/-- The word, block and digest sizes: `W >= 1`, `B` a power of two, a multiple of `W`, `2*W <= B <= 2^wb`; `H` a
multiple of `W` with `H >= W`; `OFFSET` 0 or 1 (R10 to R15, R20). -/
def Config.sizesWf (c : Config) : Bool :=
  decide (1 ≤ c.W) && isPowerOfTwo c.B && decide (c.B % c.W = 0) && decide (2 * c.W ≤ c.B)
    && decide (c.B ≤ 2 ^ c.wb) && decide (c.H % c.W = 0) && decide (c.W ≤ c.H) && decide (c.offset ≤ 1)

/-- `IV` is `NH` words of `wb` bits (R16). DEDUCED as a check, log 13. -/
def Config.ivWf (c : Config) : Bool :=
  decide (c.iv.length = c.nh) && c.iv.all fun w => decide (w < 2 ^ c.wb)

/-- `AW` and `LW` are in `[1, 64]` (R18, R20). -/
def Config.widthsWf (c : Config) : Bool :=
  decide (1 ≤ c.AW) && decide (c.AW ≤ 64) && decide (1 ≤ c.LW) && decide (c.LW ≤ 64)

/-- One address set: in the canonical form of `AddrSet` and made of host addresses, all below `2 ^ AW` (R19, R60;
DEDUCED as a check, log 13), and not meeting the register window `[BASE, BASE + 0x20)` (R78). -/
def Config.setWf (c : Config) (S : AddrSet) : Bool :=
  S.canonical && (S.all fun r => decide (r.hi ≤ 2 ^ c.AW))
    && S.all fun r => decide (r.hi ≤ c.base ∨ c.base + 0x20 ≤ r.lo)

/-- The configuration has a machine (R20, R78). -/
def Config.wf (c : Config) : Bool :=
  c.sizesWf && c.ivWf && c.widthsWf && c.setWf c.readable && c.setWf c.writable

/-- A command has no operand fields (R83), so every command is well formed. -/
def Instr.wf : Instr → Bool
  | .init => true
  | .update => true
  | .finalize => true

end Sys2Proof
end

