-- ==== Sys2Proof/Machine/State.lean ====
section
/-! DEFINITION. The state of the machine (R30), the reasons a step stops, and the state after reset (R48). -/

namespace Sys2Proof.Machine

/-- `LIFECYCLE` (R36). -/
inductive Lifecycle where
  /-- No INIT since reset. -/
  | uninit
  /-- INIT has been done and FINALIZE has not run since. -/
  | active
  /-- FINALIZE has run since the last INIT. -/
  | finalized
deriving DecidableEq, Repr

/-- `CAUSE`: the cause codes that R171 defines. Codes 5 to 15 are reserved and never raised. -/
inductive Cause where
  /-- Code 0: no fault since reset. -/
  | none
  /-- Code 1 (R173). -/
  | illegalCommand
  /-- Code 2 (R174). -/
  | notActive
  /-- Code 3 (R175). -/
  | inputSpan
  /-- Code 4 (R176). -/
  | digestSpan
deriving DecidableEq, Repr

/-- One access of the Host (R9): the model's input. The Host's program (R89) is a list of these. Log 8. -/
inductive HostAccess where
  /-- A register write of `width` bits at host address `addr` (R44). The data is the number the bus carries: a 32-bit
  access uses its low 32 bits. Log 23. -/
  | write (addr width : Nat) (data : BitVec 64)
  /-- A register read of `width` bits at host address `addr` (R44). -/
  | read (addr width : Nat)
  /-- The Host stores one byte of its memory (R9, R60). Log 10. -/
  | store (addr : Nat) (b : Byte)
  /-- The Host loads one byte of its memory (R9, R60). Log 10. -/
  | load (addr : Nat)
  /-- Reset is asserted (R200). Log 22. -/
  | reset
deriving DecidableEq, Repr

/-- Host memory (R60): `(address, byte)` pairs, sparse. An address that is not listed reads as `Memory.unlisted`. -/
abbrev Memory := List Host.Cell

/-- What a byte of memory that is not listed reads as. The spec gives host memory no contents at power-on. DESIGN
CHOICE, unsafe, log 7. -/
def Memory.unlisted : Byte := 0x00

/-- The canonical form: addresses strictly rising, and no entry equal to what an unlisted address reads as. -/
def Memory.wf : Memory → Bool
  | [] => true
  | [e] => decide (e.2 ≠ Memory.unlisted)
  | e :: e' :: m => decide (e.2 ≠ Memory.unlisted) && decide (e.1 < e'.1) && Memory.wf (e' :: m)

/-- Why a step stops with a fault. A fault the ENGINE raises is not one of these: it is an entry the spec describes
(R172), a next state with `FAULT = 1`. -/
inductive Fault where
  /-- The Host stores or loads a byte at an address outside `[0, 2^AW)`, which does not exist (R60). Raised by
  `hostStore` and `hostLoad`. Safe. Log 11. -/
  | noSuchAddress (addr : Nat)
deriving DecidableEq, Repr

/-- Why a step has no meaning. -/
inductive Refusal where
  /-- A command not modelled yet, by its mnemonic. No arm raises it. -/
  | notModelled (mnemonic : String)
  /-- A Host access that touches no interface register as R44 demands: narrower or wider than the register, misaligned,
  or at an offset that R38 does not list. Raised by `hostWrite`, `hostRead`, `hostStore`, `hostLoad`. Safe (R44: the
  model gives such an access no meaning). Log 12. -/
  | interfaceAccess
  /-- The configuration breaks a constraint of R20 or R78, so it has no machine. Raised by `hostStep`. Safe. Log 13. -/
  | configuration
deriving DecidableEq, Repr

/-- The state. `CMD` holds nothing (R39), `STATUS` is a view (R40, `State.status`) and `VALID` is derived (R32,
`State.valid`), so they are no fields. -/
structure State where
  /-- The configuration (R20). No command and no reset writes it. Log 1. -/
  cfg : Config
  /-- `PEND`, `B` bytes (R31). -/
  pend : List Byte
  /-- `ACC`, `NH` words (R34). -/
  acc : List Word
  /-- `CNT_LO` (R35). -/
  cntLo : Word
  /-- `CNT_HI` (R35). -/
  cntHi : Word
  /-- `LIFECYCLE` (R36). -/
  lifecycle : Lifecycle
  /-- `FAULT` (R37). -/
  fault : Bool
  /-- `CAUSE` (R37). -/
  cause : Cause
  /-- `SRC` (R41). -/
  src : BitVec 64
  /-- `LEN` (R42). -/
  len : BitVec 64
  /-- `DST` (R43). -/
  dst : BitVec 64
  /-- Host memory (R60). -/
  mem : Memory
  /-- The model's own: what the Host's last read returned. Log 9. -/
  rdata : BitVec 64
  /-- The model's own: the Host accesses still to come, oldest first. Log 8. -/
  script : List HostAccess
  /-- The model's own: the number of the next free draw (R25). Log 4. -/
  draws : Nat
deriving DecidableEq, Repr

/-- Power-on with configuration `c` (R48, R201): the unspecified registers hold draw 0, no memory is listed, and the
Host has no access to make. -/
def State.powerOn (c : Config) : State where
  cfg := c
  pend := c.freePend 0
  acc := c.freeAcc 0
  cntLo := c.freeCntLo 0
  cntHi := c.freeCntHi 0
  lifecycle := .uninit
  fault := false
  cause := .none
  src := 0
  len := 0
  dst := 0
  mem := []
  rdata := 0
  script := []
  draws := 1

/-- The machine right after reset, in the configuration TOY-A. The spec fixes no configuration (R20). DESIGN CHOICE,
log 2. -/
def State.reset : State := State.powerOn Config.toyA

end Sys2Proof.Machine
end

