-- ==== Sys2Proof/Machine/Flags.lean ====
section
/-! DEFINITION. The status view (R40), the cause codes (R171) and the counter's carry (R113): the engine has no other
flags (R45). -/

namespace Sys2Proof.Machine

/-- `STATUS.LC` (R40). -/
def Lifecycle.code : Lifecycle → BitVec 2
  | .uninit => 0
  | .active => 1
  | .finalized => 2

/-- The 4-bit cause code (R171). -/
def Cause.code : Cause → BitVec 4
  | .none => 0
  | .illegalCommand => 1
  | .notActive => 2
  | .inputSpan => 3
  | .digestSpan => 4

/-- `STATUS`: `LC` in [1:0], `FAULT` in [2], 0 in [3], `CAUSE` in [7:4], 0 above (R40). -/
def State.status (s : State) : BitVec 32 :=
  (0 : BitVec 24) ++ s.cause.code ++ (0 : BitVec 1) ++ BitVec.ofBool s.fault ++ s.lifecycle.code

/-- `safe_shr(v, s) = floor(v / 2^s)` for every `s`, an exact quotient (R22, R114). -/
def safeShr (v s : Nat) : Nat := v / 2 ^ s

/-- `carry`: 1 when the low counter wrapped, which is when its new value is below its old one (R113). -/
def carryOf (newLo oldLo : Word) : Nat := if newLo < oldLo then 1 else 0

/-- The byte counter after `len` more bytes, `(CNT_LO, CNT_HI)` (R113). -/
def counterAdd (c : Config) (lo hi : Word) (len : Nat) : Word × Word :=
  let lo' := (lo + len % 2 ^ c.wb) % 2 ^ c.wb
  (lo', (hi + carryOf lo' lo + safeShr len c.wb % 2 ^ c.wb) % 2 ^ c.wb)

/-- The bit count, `(BC_LO, BC_HI)` (R141). -/
def bitCount (c : Config) (lo hi : Word) : Word × Word :=
  ((lo <<< 3) % 2 ^ c.wb, ((lo >>> (c.wb - 3)) + (hi <<< 3)) % 2 ^ c.wb)

end Sys2Proof.Machine
end

