-- ==== Sys2Proof/Machine/Operands.lean ====
section
/-! DEFINITION. Operands (R83), spans (R61 to R63), byte ranges (R23), and the turning of bytes into words and words
into bytes (R68 to R70). -/

namespace Sys2Proof.Machine

/-- `src = SRC[AW-1:0]`, unsigned (R83). -/
def State.srcOperand (s : State) : Nat := s.src.toNat % 2 ^ s.cfg.AW

/-- `len = LEN[LW-1:0]`, unsigned (R83). -/
def State.lenOperand (s : State) : Nat := s.len.toNat % 2 ^ s.cfg.LW

/-- `dst = DST[AW-1:0]`, unsigned (R83). -/
def State.dstOperand (s : State) : Nat := s.dst.toNat % 2 ^ s.cfg.AW

/-- `VALID = CNT_LO mod B`, the fill level of `PEND` (R32). -/
def State.valid (s : State) : Nat := s.cntLo % s.cfg.B

/-- `InputSpanValid(src, len)` (R61). -/
def inputSpanValid (c : Config) (src len : Nat) : Bool :=
  decide (src + len ≤ 2 ^ c.AW) && c.readable.hasSpan src len

/-- `DigestSpanValid(dst)` (R63). -/
def digestSpanValid (c : Config) (dst : Nat) : Bool :=
  decide (dst + c.H ≤ 2 ^ c.AW) && c.writable.hasSpan dst c.H

/-- `S[a..b)` (R23). -/
def slice {α : Type} (a b : Nat) (S : List α) : List α := (S.drop a).take (b - a)

/-- The buffer `S` after `S[a .. a + len(xs)) <- xs`. -/
def patch {α : Type} (a : Nat) (xs S : List α) : List α := S.take a ++ xs ++ S.drop (a + xs.length)

/-- `zeros(n)` (R23). -/
def zeros (n : Nat) : List Byte := List.replicate n 0x00

/-- `asm_ORDER(b)`: `W` bytes to a word (R68). -/
def asmWord (c : Config) (b : List Byte) : Word :=
  match c.order with
  | .le => ((List.range c.W).map fun i => (b.getD i 0).toNat * 2 ^ (8 * i)).sum
  | .be => ((List.range c.W).map fun i => (b.getD i 0).toNat * 2 ^ (8 * (c.W - 1 - i))).sum

/-- `ser_ORDER(v)`: a word to `W` bytes (R69). -/
def serWord (c : Config) (v : Word) : List Byte :=
  match c.order with
  | .le => (List.range c.W).map fun i => BitVec.ofNat 8 ((v >>> (8 * i)) % 256)
  | .be => (List.range c.W).map fun i => BitVec.ofNat 8 ((v >>> (8 * (c.W - 1 - i))) % 256)

/-- `words_ORDER(blk)`, the word view of a block (R70). -/
def wordView (c : Config) (blk : List Byte) : List Word :=
  (List.range c.nw).map fun j => asmWord c (slice (j * c.W) ((j + 1) * c.W) blk)

/-- The digest bytes of an accumulator: byte `i*W + j` is `ser_ORDER(ACC[i])[j]` (R149). -/
def digestBytes (c : Config) (acc : List Word) : List Byte :=
  (List.range c.nh).flatMap fun i => serWord c (acc.getD i 0)

end Sys2Proof.Machine
end

