-- ==== Sys2Proof/Machine/Ops.lean ====
section
/-! DEFINITION. The named operations over memory and registers: reading and writing host memory, the fault entry and
its only way out, the transform issue, the free draws, and the writes to the interface registers. -/

namespace Sys2Proof.Machine

/-- What a step of this machine answers. -/
abbrev Answer := Host.Outcome State Fault Refusal

/-! ### Host memory -/

/-- `MemRead(addr, 1)` (R24, R67). -/
def Memory.read : Memory → Nat → Byte
  | [], _ => Memory.unlisted
  | e :: m, a => if e.1 = a then e.2 else Memory.read m a

/-- The memory `m` with `(a, b)` in front, unless `b` is what an unlisted address reads as. -/
def Memory.cons (a : Nat) (b : Byte) (m : Memory) : Memory :=
  if b = Memory.unlisted then m else (a, b) :: m

/-- `MemWrite(addr, 1, v)` (R24, R67), keeping the canonical form. -/
def Memory.write : Memory → Nat → Byte → Memory
  | [], a, b => Memory.cons a b []
  | e :: m, a, b =>
    if a < e.1 then Memory.cons a b (e :: m)
    else if a = e.1 then Memory.cons a b m
    else e :: Memory.write m a b

/-- `[MemRead(a + k, 1) for k in 0 .. n-1]` (R64). -/
def Memory.readSpan (m : Memory) (a : Nat) : Nat → List Byte
  | 0 => []
  | n + 1 => m.read a :: Memory.readSpan m (a + 1) n

/-- Bytes stored at `a`, `a + 1`, … in turn, each exactly once (R66, R149). -/
def Memory.writeBytes (m : Memory) (a : Nat) : List Byte → Memory
  | [] => m
  | b :: bs => Memory.writeBytes (m.write a b) (a + 1) bs

/-! ### Faults and reset -/

/-- `raise Fault(cause)`, the fault entry: `FAULT <- 1`, `CAUSE <- cause`, and nothing else changes (R172). -/
def State.raiseFault (s : State) (cause : Cause) : State :=
  { s with fault := true, cause := cause }

/-- The four internal registers become unspecified: each takes a free value of a fresh draw (R25). -/
def State.forget (s : State) : State :=
  { s with
    pend := s.cfg.freePend s.draws
    acc := s.cfg.freeAcc s.draws
    cntLo := s.cfg.freeCntLo s.draws
    cntHi := s.cfg.freeCntHi s.draws
    draws := s.draws + 1 }

/-- Reset, the only way out of a fault (R180, R183): every piece of the engine's state takes its value of R48; memory
and the configuration are untouched (R200). The Host's pending accesses and its last read are not the engine's. -/
def State.assertReset (s : State) : State :=
  { s.forget with
    lifecycle := .uninit
    fault := false
    cause := .none
    src := 0
    len := 0
    dst := 0 }

/-- Quiescence: while `FAULT = 1` a `CMD` write has no effect (R87, R178). Log 15. -/
def State.unlessFaulted (s : State) (answer : Answer) : Answer :=
  if s.fault then .next s else answer

/-! ### Transform issues and free draws -/

/-- `TransformIssue(blk)`: the accumulator after one more block (R122). -/
def issue (c : Config) (acc : List Word) (blk : List Byte) : List Word :=
  c.applyT acc (wordView c blk)

/-- The bytes `PEND[VALID..B)` become unspecified, by a fresh draw (R33, R120). Log 17. -/
def State.forgetTail (s : State) : State :=
  { s with
    pend := s.pend.take s.valid ++ (s.cfg.freePend s.draws).drop s.valid
    draws := s.draws + 1 }

/-! ### Interface registers -/

/-- A value cut to its low `n` bits, as `SRC`, `LEN` and `DST` store it (R41 to R43). -/
def lowBits (n : Nat) (v : BitVec 64) : BitVec 64 := BitVec.ofNat 64 (v.toNat % 2 ^ n)

/-- A Host write to `SRC` (R41). -/
def State.writeSrc (s : State) (v : BitVec 64) : State := { s with src := lowBits s.cfg.AW v }

/-- A Host write to `LEN` (R42). -/
def State.writeLen (s : State) (v : BitVec 64) : State := { s with len := lowBits s.cfg.LW v }

/-- A Host write to `DST` (R43). -/
def State.writeDst (s : State) (v : BitVec 64) : State := { s with dst := lowBits s.cfg.AW v }

/-- The Host's read returns `v`. Log 9. -/
def State.returnData (s : State) (v : BitVec 64) : State := { s with rdata := v }

/-- The Host's accesses still to come are `rest`. Log 8. -/
def State.withScript (s : State) (rest : List HostAccess) : State := { s with script := rest }

/-- The Host stores a byte of its memory (R60). -/
def State.storeByte (s : State) (a : Nat) (b : Byte) : State := { s with mem := s.mem.write a b }

end Sys2Proof.Machine
end

