-- ==== Sys2Proof/Machine/Finalize.lean ====
section
/-! DEFINITION. FINALIZE (42_finalize.md): the bit count is `bitCount`, and the padding generator, the length field and
the digest are below. -/

namespace Sys2Proof.Machine

/-- Step 2, the padding: the pad byte after `n` valid bytes, then the zero fill; when the pad byte and the length field
do not both fit, one block is issued and the next one zero-filled (R143 to R145). It answers `ACC` and `PEND`. -/
def pad (c : Config) (n : Nat) (acc : List Word) (pend : List Byte) : List Word × List Byte :=
  let marked := patch n [0x80] pend
  if n + 1 ≤ c.lenField then
    (acc, patch (n + 1) (zeros (c.lenField - (n + 1))) marked)
  else
    let full := patch (n + 1) (zeros (c.B - (n + 1))) marked
    (issue c acc (slice 0 c.B full), patch 0 (zeros c.lenField) full)

/-- Step 3, the length field: each bit-count word into its slot, in `ORDER` (R146, R147). -/
def putLength (c : Config) (bc : Word × Word) (pend : List Byte) : List Byte :=
  patch (c.hiSlot * c.W) (serWord c bc.2) (patch (c.loSlot * c.W) (serWord c bc.1) pend)

/-- Steps 1 to 4: the accumulator after the final block (R141 to R148). -/
def State.finalAcc (s : State) : List Word :=
  let padded := pad s.cfg s.valid s.acc s.pend
  issue s.cfg padded.1 (slice 0 s.cfg.B (putLength s.cfg (bitCount s.cfg s.cntLo s.cntHi) padded.2))

/-- Step 5: the digest goes to memory at `dst`, after the final issue (R149). -/
def State.writeDigest (s : State) : State :=
  { s with mem := s.mem.writeBytes s.dstOperand (digestBytes s.cfg s.finalAcc) }

/-- After step 5: `LIFECYCLE <- FINALIZED`, and `ACC`, `PEND`, `CNT_LO`, `CNT_HI` are unspecified (R150). -/
def State.consume (s : State) : State :=
  { s.forget with lifecycle := .finalized }

/-- FINALIZE (R140), its two checks made before any effect (R154, R177). -/
def execFinalize (s : State) : Answer :=
  s.unlessFaulted <|
    if s.lifecycle ≠ .active then .next (s.raiseFault .notActive)
    else if digestSpanValid s.cfg s.dstOperand = false then .next (s.raiseFault .digestSpan)
    else .next s.writeDigest.consume

end Sys2Proof.Machine
end

