-- ==== Sys2Proof/Machine/Init.lean ====
section
/-! DEFINITION. INIT (40_init.md). -/

namespace Sys2Proof.Machine

/-- The writes of INIT: both counter words to 0, `ACC` to `IV`, `LIFECYCLE` to `ACTIVE` (R100). -/
def State.beginStream (s : State) : State :=
  { s with cntLo := 0, cntHi := 0, acc := s.cfg.iv, lifecycle := .active }

/-- INIT (R100), legal in every `LIFECYCLE` state (R101). `VALID` is then 0, so every byte of `PEND` is unspecified
(R33). -/
def execInit (s : State) : Answer :=
  s.unlessFaulted (.next s.beginStream.forgetTail)

end Sys2Proof.Machine
end

