-- ==== Sys2Proof/Machine/Update.lean ====
section
/-! DEFINITION. UPDATE (41_update.md): the byte counter is `counterAdd`, and buffering and the block scheduler are
below. -/

namespace Sys2Proof.Machine

/-- `n` turns of the block loop: issue the first `B` bytes of the input and go on with the rest (R119). It answers the
accumulator and the input that is left. -/
def issueBlocks (c : Config) : Nat → List Word → List Byte → List Word × List Byte
  | 0, acc, I => (acc, I)
  | n + 1, acc, I => issueBlocks c n (issue c acc (I.take c.B)) (I.drop c.B)

/-- Steps 4 and 5: `while rem >= B` issue a block, which is `rem / B` turns, and then `PEND[0 .. rem)` takes the
remainder (R119, R121). It answers `ACC` and `PEND`. -/
def schedule (c : Config) (acc : List Word) (pend I : List Byte) : List Word × List Byte :=
  let left := issueBlocks c (I.length / c.B) acc I
  (left.1, patch 0 left.2 pend)

/-- Steps 3 to 5: the input `I` goes into the engine with `num` bytes pending (R117 to R121). It answers `ACC` and
`PEND`. -/
def absorb (c : Config) (num : Nat) (acc : List Word) (pend I : List Byte) : List Word × List Byte :=
  if num = 0 then schedule c acc pend I
  else if c.B ≤ num + I.length then
    let full := patch num (slice 0 (c.B - num) I) pend
    schedule c (issue c acc (slice 0 c.B full)) full (I.drop (c.B - num))
  else (acc, patch num I pend)

/-- Steps 1 to 5 of UPDATE over the input bytes `I`. The fill level is taken from the OLD low counter (R116). -/
def State.append (s : State) (I : List Byte) : State :=
  let cnt := counterAdd s.cfg s.cntLo s.cntHi I.length
  let buf := absorb s.cfg s.valid s.acc s.pend I
  { s with cntLo := cnt.1, cntHi := cnt.2, acc := buf.1, pend := buf.2 }

/-- UPDATE (R110), its two checks made before any effect (R111, R177). Afterwards `PEND[VALID..B)` is unspecified
(R120). -/
def execUpdate (s : State) : Answer :=
  s.unlessFaulted <|
    if s.lifecycle ≠ .active then .next (s.raiseFault .notActive)
    else if 0 < s.lenOperand ∧ inputSpanValid s.cfg s.srcOperand s.lenOperand = false then
      .next (s.raiseFault .inputSpan)
    else .next (s.append (s.mem.readSpan s.srcOperand s.lenOperand)).forgetTail

end Sys2Proof.Machine
end

