-- ==== Sys2Proof/Machine/Interface.lean ====
section
/-! DEFINITION. The interface registers (R38 to R44), the CMD write that issues a command (R87), and the Host's accesses
to memory and reset. -/

namespace Sys2Proof.Machine

/-- The five interface registers (R38). -/
inductive Reg where
  | cmd
  | status
  | src
  | len
  | dst
deriving DecidableEq, Repr

/-- The byte offset from `BASE` (R38). -/
def Reg.offset : Reg → Nat
  | .cmd => 0x00
  | .status => 0x04
  | .src => 0x08
  | .len => 0x10
  | .dst => 0x18

/-- The width in bits (R38). -/
def Reg.width : Reg → Nat
  | .cmd | .status => 32
  | .src | .len | .dst => 64

/-- The register that an access of `width` bits at host address `a` is an access to, if R44 allows it. -/
def regAt (c : Config) (a width : Nat) : Option Reg :=
  [Reg.cmd, .status, .src, .len, .dst].find? fun r => decide (a = c.base + r.offset ∧ width = r.width)

/-- Is the address in the register window `[BASE, BASE + 0x20)` (R78)? -/
def inWindow (c : Config) (a : Nat) : Bool := decide (c.base ≤ a ∧ a < c.base + 0x20)

/-- A Host write of the word `w` to `CMD`, one atomic transition (R87). -/
def commandWrite (w : BitVec 32) (s : State) : Answer :=
  s.unlessFaulted <|
    match decode w with
    | .error _ => .next (s.raiseFault .illegalCommand)
    | .ok i => exec i s

/-- A Host write to an interface register (R39 to R43); any other write is refused (R44). -/
def hostWrite (a width : Nat) (v : BitVec 64) (s : State) : Answer :=
  match regAt s.cfg a width with
  | some .cmd => commandWrite (v.setWidth 32) s
  | some .status => .next s
  | some .src => .next (s.writeSrc v)
  | some .len => .next (s.writeLen v)
  | some .dst => .next (s.writeDst v)
  | none => .refused .interfaceAccess

/-- A Host read of an interface register (R39 to R43); any other read is refused (R44). No read has a side effect. -/
def hostRead (a width : Nat) (s : State) : Answer :=
  match regAt s.cfg a width with
  | some .cmd => .next (s.returnData 0)
  | some .status => .next (s.returnData (s.status.setWidth 64))
  | some .src => .next (s.returnData (lowBits s.cfg.AW s.src))
  | some .len => .next (s.returnData (lowBits s.cfg.LW s.len))
  | some .dst => .next (s.returnData (lowBits s.cfg.AW s.dst))
  | none => .refused .interfaceAccess

/-- The Host stores a byte of memory (R60). A byte access in the register window is one that R44 refuses. -/
def hostStore (a : Nat) (b : Byte) (s : State) : Answer :=
  if inWindow s.cfg a then .refused .interfaceAccess
  else if a < 2 ^ s.cfg.AW then .next (s.storeByte a b)
  else .fault (.noSuchAddress a)

/-- The Host loads a byte of memory (R60). A byte access in the register window is one that R44 refuses. -/
def hostLoad (a : Nat) (s : State) : Answer :=
  if inWindow s.cfg a then .refused .interfaceAccess
  else if a < 2 ^ s.cfg.AW then .next (s.returnData ((s.mem.read a).setWidth 64))
  else .fault (.noSuchAddress a)

/-- One access of the Host. -/
def hostAccess (x : HostAccess) (s : State) : Answer :=
  match x with
  | .write a width v => hostWrite a width v s
  | .read a width => hostRead a width s
  | .store a b => hostStore a b s
  | .load a => hostLoad a s
  | .reset => .next s.assertReset

/-- The Host's next access: a refused configuration has no machine (R20); with no access to come nothing happens, and
the state survives (R188); else the oldest access leaves the script and takes effect, whole, before the next (R73). -/
def hostStep (s : State) : Answer :=
  if s.cfg.wf then
    match s.script with
    | [] => .next s
    | x :: rest => hostAccess x (s.withScript rest)
  else .refused .configuration

/-- The CMD write that issues the command word `w`, put before the Host's other accesses. -/
def State.issueNext (s : State) (w : BitVec 64) : State :=
  s.withScript (.write (s.cfg.base + Reg.cmd.offset) Reg.cmd.width w :: s.script)

end Sys2Proof.Machine
end

