-- ==== Sys2Proof/Machine/Step.lean ====
section
/-! DEFINITION. The step of the machine: one access of the Host, with the whole transition it fires (R9, R73, R87). -/

namespace Sys2Proof.Machine

def step : State → Host.Outcome State Fault Refusal := hostStep

/-- The command word `w` of `nbits` bits as the Host's very next access: a write to `CMD` (R80, R87). Log 8. -/
def State.withFetchWord (s : State) (nbits w : Nat) : State :=
  s.issueNext (BitVec.ofNat 64 (w % 2 ^ nbits))

end Sys2Proof.Machine
end

