-- ==== Sys2Proof/Machine/HostProgram.lean ====
section
/-! DEFINITION. Host programs in the spec's own lines and pseudo-instructions (R89, R90). -/

namespace Sys2Proof.Machine

/-- A full-width write of `v` to register `r` (R44, R89). -/
def Reg.put (r : Reg) (c : Config) (v : BitVec 64) : HostAccess := .write (c.base + r.offset) r.width v

/-- A full-width read of register `r` (R44, R89). -/
def Reg.get (r : Reg) (c : Config) : HostAccess := .read (c.base + r.offset) r.width

/-- The write of the command `i` to `CMD` (R89). -/
def issueCommand (c : Config) (i : Instr) : HostAccess := Reg.cmd.put c ((encode i).setWidth 64)

/-- `update <src>, <len>` (R90). -/
def updateProgram (c : Config) (src len : BitVec 64) : List HostAccess :=
  [Reg.src.put c src, Reg.len.put c len, issueCommand c .update]

/-- `finalize <dst>` (R90). -/
def finalizeProgram (c : Config) (dst : BitVec 64) : List HostAccess :=
  [Reg.dst.put c dst, issueCommand c .finalize]

/-- `hash <src>, <len>, <dst>` (R90). -/
def hashProgram (c : Config) (src len dst : BitVec 64) : List HostAccess :=
  issueCommand c .init :: (updateProgram c src len ++ finalizeProgram c dst)

end Sys2Proof.Machine
end

