-- ==== Sys2Proof/Safety.lean ====
section
/-! DEFINITION. What claims are stated in: a state that is not faulted (R178), the invariant of every state, the
reference functions `F` (R49) and the padded message (R151), the stream a state holds (R49), and what the Host can see
of a state (R46). -/

namespace Sys2Proof.Machine

/-- The spec's `s` with `FAULT = 1`: faulted, never a successful end (R178). -/
def State.Faulted (s : State) : Prop := s.fault = true

/-- `k` steps, each of them to a next state, lead from `s` to `t`. -/
def Runs : Nat → State → State → Prop
  | 0, s, t => t = s
  | k + 1, s, t => ∃ u, step s = .next u ∧ Runs k u t

/-- A run of `k` steps that ends well: in a state with `FAULT = 0`, the premise of a claim about a run (R178). -/
def EndsWell (k : Nat) (s t : State) : Prop := Runs k s t ∧ ¬t.Faulted

/-- The invariant of the machine: the configuration has a machine (R20), every register holds a value of its type (R31
to R43), memory is in its canonical form over `[0, 2^AW)` (R60), and `CAUSE` is `NONE` exactly while `FAULT = 0`
(R171). -/
structure State.Wf (s : State) : Prop where
  cfg : s.cfg.wf = true
  pendLength : s.pend.length = s.cfg.B
  accLength : s.acc.length = s.cfg.nh
  accWords : ∀ w ∈ s.acc, w < 2 ^ s.cfg.wb
  cntLo : s.cntLo < 2 ^ s.cfg.wb
  cntHi : s.cntHi < 2 ^ s.cfg.wb
  src : s.src.toNat < 2 ^ s.cfg.AW
  len : s.len.toNat < 2 ^ s.cfg.LW
  dst : s.dst.toNat < 2 ^ s.cfg.AW
  memForm : s.mem.wf = true
  memAddrs : ∀ e ∈ s.mem, e.1 < 2 ^ s.cfg.AW
  cause : s.fault = false ↔ s.cause = .none

/-- `CNT = CNT_HI * 2^wb + CNT_LO` (R35). -/
def State.cnt (s : State) : Nat := s.cntHi * 2 ^ s.cfg.wb + s.cntLo

/-- The input bytes of an UPDATE issued in `s` (R64). -/
def State.input (s : State) : List Byte := s.mem.readSpan s.srcOperand s.lenOperand

/-- The input span of an UPDATE issued in `s` is valid, as R61 words it. -/
def State.InputSpanOk (s : State) : Prop :=
  s.srcOperand + s.lenOperand ≤ 2 ^ s.cfg.AW ∧
    ∀ k < s.lenOperand, s.cfg.readable.has (s.srcOperand + k) = true

/-- The digest span of a FINALIZE issued in `s` is valid, as R63 words it. -/
def State.DigestSpanOk (s : State) : Prop :=
  s.dstOperand + s.cfg.H ≤ 2 ^ s.cfg.AW ∧
    ∀ k < s.cfg.H, s.cfg.writable.has (s.dstOperand + k) = true

/-- The consecutive whole `B`-byte blocks of a byte sequence. -/
def blocksOf (c : Config) (S : List Byte) : List (List Byte) :=
  (List.range (S.length / c.B)).map fun i => slice (i * c.B) ((i + 1) * c.B) S

/-- `F(a, S)`: the accumulator `a` after the transform took the blocks of `S` in order (R49). -/
def compress (c : Config) (a : List Word) (S : List Byte) : List Word :=
  (blocksOf c S).foldl (fun a blk => c.applyT a (wordView c blk)) a

/-- The length field `LF` of a stream of `N` bytes: the bit count `8*N mod 2^(2*wb)` as two words, low word first when
`OFFSET = 0` and high word first when `OFFSET = 1`, each in `ORDER` (R142, R146, R147). -/
def lengthField (c : Config) (N : Nat) : List Byte :=
  let bits := 8 * N % 2 ^ (2 * c.wb)
  let lo := serWord c (bits % 2 ^ c.wb)
  let hi := serWord c (bits / 2 ^ c.wb)
  if c.offset = 0 then lo ++ hi else hi ++ lo

/-- `z = (L - (N mod B) - 1) mod B`, the number of zero bytes of the padding (R151). -/
def zeroCount (c : Config) (N : Nat) : Nat :=
  (((c.lenField : Int) - ((N % c.B : Nat) : Int) - 1) % (c.B : Int)).toNat

/-- `M = S ++ [0x80] ++ zeros(z) ++ LF` (R151). -/
def paddedMessage (c : Config) (S : List Byte) : List Byte :=
  S ++ [0x80] ++ zeros (zeroCount c S.length) ++ lengthField c S.length

/-- The final accumulator of a whole stream: `F` over the padded message from `IV` (R151). -/
def streamAcc (c : Config) (S : List Byte) : List Word := compress c c.iv (paddedMessage c S)

/-- The digest bytes of the accumulator `acc` stand at `dst` in `m`: byte `dst + i*W + j` is `ser_ORDER(ACC[i])[j]`
(R149). -/
def DigestAt (c : Config) (m : Memory) (dst : Nat) (acc : List Word) : Prop :=
  ∀ i < c.nh, ∀ j < c.W, m.read (dst + i * c.W + j) = (serWord c (acc.getD i 0)).getD j 0

/-- The state holds the stream `S`: the invariant between commands, clauses (a) to (d) (R49). -/
structure State.Holds (s : State) (S : List Byte) : Prop where
  active : s.lifecycle = .active
  running : s.fault = false
  count : s.cnt = S.length % 2 ^ (2 * s.cfg.wb)
  fill : s.valid = S.length % s.cfg.B
  pending : slice 0 s.valid s.pend = slice (S.length - s.valid) S.length S
  folded : s.acc = compress s.cfg s.cfg.iv (slice 0 (S.length - s.valid) S)

/-- Two states the Host cannot tell apart by looking: they differ at most in `PEND`, `ACC`, `CNT_LO`, `CNT_HI` (R46) and
in the model's draw counter. -/
structure SameToHost (s s' : State) : Prop where
  cfg : s.cfg = s'.cfg
  lifecycle : s.lifecycle = s'.lifecycle
  fault : s.fault = s'.fault
  cause : s.cause = s'.cause
  src : s.src = s'.src
  len : s.len = s'.len
  dst : s.dst = s'.dst
  mem : s.mem = s'.mem
  rdata : s.rdata = s'.rdata
  script : s.script = s'.script

/-- The bytes that the spans `(src, len)` of the list hold in memory `m`, one span after the other. -/
def spansBytes (c : Config) (m : Memory) (spans : List (BitVec 64 × BitVec 64)) : List Byte :=
  spans.flatMap fun p => m.readSpan (p.1.toNat % 2 ^ c.AW) (p.2.toNat % 2 ^ c.LW)

/-- The spans are all valid input spans, as R61 and R62 word it. -/
def SpansOk (c : Config) (spans : List (BitVec 64 × BitVec 64)) : Prop :=
  ∀ p ∈ spans, p.2.toNat % 2 ^ c.LW = 0 ∨
    (p.1.toNat % 2 ^ c.AW + p.2.toNat % 2 ^ c.LW ≤ 2 ^ c.AW ∧
      ∀ k < p.2.toNat % 2 ^ c.LW, c.readable.has (p.1.toNat % 2 ^ c.AW + k) = true)

/-- UPDATE commands over the spans `(src, len)` of the list, in turn: for each, the Host writes `SRC` and `LEN` and
issues UPDATE (R90). -/
def updatePrograms (c : Config) (spans : List (BitVec 64 × BitVec 64)) : List HostAccess :=
  spans.flatMap fun p => updateProgram c p.1 p.2

/-- INIT, UPDATE commands over the spans, and FINALIZE at `dst`: the control flow of one stream (R90, R203). -/
def streamProgram (c : Config) (spans : List (BitVec 64 × BitVec 64)) (dst : BitVec 64) : List HostAccess :=
  issueCommand c .init :: (updatePrograms c spans ++ finalizeProgram c dst)

end Sys2Proof.Machine
end

