-- ==== Sys2Proof/Certificates/Slice0/Obligations.lean ====
section
/-! DEFINITION. The statements for the provers. Each docstring names the rule of spec/ it formalises. A free value (R25)
is named by no statement. -/

open Sys2Proof Sys2Proof.Machine

/-! ### The command word -/

/-- R81: what each value of `OP` decodes to when `RSV = 0`, and the three full words. -/
def Obligations.EveryOpValueDecodes : Prop :=
  (∀ op : BitVec 4, decode ((0 : BitVec 28) ++ op) =
      if op = 0x1 then .ok .init else if op = 0x2 then .ok .update else if op = 0x3 then .ok .finalize
      else .error .reservedOp) ∧
    encode .init = 0x00000001 ∧ encode .update = 0x00000002 ∧ encode .finalize = 0x00000003

/-- Words written out from R80 and R81 (vectors EN-1 to EN-9 of 95_test_vectors.md §3.1) decode to what they stand
for. -/
def Obligations.SampleWordsDecode : Prop :=
  decode 0x00000001 = .ok .init ∧ decode 0x00000002 = .ok .update ∧ decode 0x00000003 = .ok .finalize ∧
    decode 0x00000000 = .error .reservedOp ∧ decode 0x00000004 = .error .reservedOp ∧
    decode 0x0000000F = .error .reservedOp ∧ decode 0x00000011 = .error .reservedField ∧
    decode 0x80000001 = .error .reservedField ∧ decode 0xFFFFFFFF = .error .reservedField

/-- R82, R173: exactly three of the `2^32` words are legal, and writing any other one raises `ILLEGAL_COMMAND`, code 1,
and has no other effect. -/
def Obligations.ExactlyThreeWordsAreLegal : Prop :=
  Cause.illegalCommand.code = 1 ∧
  (∀ c : BitVec 32, (∃ i, decode c = .ok i) ↔ c = 0x00000001 ∨ c = 0x00000002 ∨ c = 0x00000003) ∧
    ∀ (c : BitVec 32) (s : State), s.fault = false → c ≠ 0x00000001 → c ≠ 0x00000002 → c ≠ 0x00000003 →
      commandWrite c s = .next { s with fault := true, cause := .illegalCommand }

/-- Decoding and encoding agree in both directions: a command is decoded from its own word, and a word that decodes to a
command is that command's word, with no bit left over (R80, R81, R85). -/
def Obligations.DecodeAndEncodeAgree : Prop :=
  (∀ i : Instr, i.wf = true → decode (encode i) = .ok i) ∧
    ∀ (w : BitVec 32) (i : Instr), decode w = .ok i → encode i = w

/-! ### The step -/

/-- A step whose access is a `CMD` write of a legal word runs exactly that command, at the state without that access;
and so does the step after `withFetchWord`. The list of accesses is the model's own (log 8). R87. -/
def Obligations.StepRunsTheIssuedCommand : Prop :=
  (∀ (s : State) (rest : List HostAccess) (v : BitVec 64) (i : Instr), s.cfg.wf = true → s.fault = false →
      s.script = .write s.cfg.base 32 v :: rest → decode (v.setWidth 32) = .ok i →
      step s = exec i (s.withScript rest)) ∧
    ∀ (s : State) (w : Nat) (i : Instr), s.cfg.wf = true → s.fault = false → w < 2 ^ 32 →
      decode (BitVec.ofNat 32 w) = .ok i → step (s.withFetchWord 32 w) = exec i s

/-- R20, R78: a configuration that breaks a constraint is refused, so it has no machine; and no command changes the
configuration. -/
def Obligations.BrokenConfigurationHasNoMachine : Prop :=
  (∀ s : State,
      ((¬∃ k, s.cfg.B = 2 ^ k) ∨ ¬s.cfg.W ∣ s.cfg.B ∨ s.cfg.B < 2 * s.cfg.W ∨ 2 ^ (8 * s.cfg.W) < s.cfg.B ∨
        ¬s.cfg.W ∣ s.cfg.H ∨ s.cfg.H < s.cfg.W ∨ (s.cfg.offset ≠ 0 ∧ s.cfg.offset ≠ 1) ∨
        s.cfg.W < 1 ∨ ¬(1 ≤ s.cfg.AW ∧ s.cfg.AW ≤ 64) ∨ ¬(1 ≤ s.cfg.LW ∧ s.cfg.LW ≤ 64) ∨
        ∃ a, s.cfg.base ≤ a ∧ a < s.cfg.base + 0x20 ∧
          (s.cfg.readable.has a = true ∨ s.cfg.writable.has a = true)) →
      step s = .refused .configuration) ∧
    ∀ (i : Instr) (s t : State), exec i s = .next t → t.cfg = s.cfg

/-- The configurations that the model accepts, in full: the constraints of R10 to R16, R18 and R78, and the model's own
clauses on how a configuration is written down (the sets in canonical form below `2^AW`, log 13 and 14). -/
def Obligations.AcceptedConfigurations : Prop :=
  ∀ c : Config, c.wf = true ↔
    1 ≤ c.W ∧ (∃ k, c.B = 2 ^ k) ∧ c.W ∣ c.B ∧ 2 * c.W ≤ c.B ∧ c.B ≤ 2 ^ (8 * c.W) ∧ c.W ∣ c.H ∧ c.W ≤ c.H ∧
      (c.offset = 0 ∨ c.offset = 1) ∧ c.iv.length = c.H / c.W ∧ (∀ w ∈ c.iv, w < 2 ^ (8 * c.W)) ∧
      1 ≤ c.AW ∧ c.AW ≤ 64 ∧ 1 ≤ c.LW ∧ c.LW ≤ 64 ∧
      ∀ S ∈ [c.readable, c.writable], S.canonical = true ∧
        ∀ a, S.has a = true → a < 2 ^ c.AW ∧ ¬(c.base ≤ a ∧ a < c.base + 0x20)

/-! ### INIT -/

/-- R100, R101: INIT completes in every lifecycle state, with the counters 0, `ACC = IV`, `LIFECYCLE = ACTIVE` and
`VALID = 0`; nothing else changes but `PEND`, which is then unspecified; and a second INIT leaves what the first one
left. -/
def Obligations.InitStartsStream : Prop :=
  ∀ s : State, s.fault = false →
    ∃ t, exec .init s = .next t ∧
      t.cntLo = 0 ∧ t.cntHi = 0 ∧ t.acc = s.cfg.iv ∧ t.lifecycle = .active ∧ t.valid = 0 ∧
      (s.cause = .none → t.status = 0x00000001) ∧
      t.cfg = s.cfg ∧ t.fault = s.fault ∧ t.cause = s.cause ∧ t.src = s.src ∧ t.len = s.len ∧ t.dst = s.dst ∧
      t.rdata = s.rdata ∧ t.script = s.script ∧ (∀ a, t.mem.read a = s.mem.read a) ∧
      ∃ u, exec .init t = .next u ∧ u.cntLo = t.cntLo ∧ u.cntHi = t.cntHi ∧ u.acc = t.acc ∧ SameToHost u t

/-- R102: after INIT the state holds the empty stream, and a FINALIZE right after it writes the digest of the empty
message. -/
def Obligations.InitHoldsEmptyStream : Prop :=
  ∀ s : State, s.Wf → s.fault = false →
    ∃ t, exec .init s = .next t ∧ t.Holds [] ∧ t.cnt = 0 ∧ t.valid = 0 ∧ t.acc = s.cfg.iv ∧
      (s.DigestSpanOk → ∃ u, exec .finalize t = .next u ∧ u.lifecycle = .finalized ∧
        DigestAt s.cfg u.mem s.dstOperand (streamAcc s.cfg []))

/-! ### UPDATE -/

/-- R113, and the frame of UPDATE: an UPDATE that faults in no precondition completes, both counter words take the
values of R113, and nothing changes but the counter, `ACC` and `PEND`. -/
def Obligations.UpdateCountsBytes : Prop :=
  ∀ s : State, s.cfg.wf = true → s.fault = false → s.lifecycle = .active → s.lenOperand = 0 ∨ s.InputSpanOk →
    ∃ t, exec .update s = .next t ∧
      t.cntLo = (s.cntLo + s.lenOperand % 2 ^ s.cfg.wb) % 2 ^ s.cfg.wb ∧
      t.cntHi = (s.cntHi + (if t.cntLo < s.cntLo then 1 else 0) + s.lenOperand / 2 ^ s.cfg.wb % 2 ^ s.cfg.wb)
        % 2 ^ s.cfg.wb ∧
      t.lifecycle = .active ∧ t.cfg = s.cfg ∧ t.fault = s.fault ∧ t.cause = s.cause ∧ t.src = s.src ∧
      t.len = s.len ∧ t.dst = s.dst ∧ t.rdata = s.rdata ∧ t.script = s.script ∧
      ∀ a, t.mem.read a = s.mem.read a

/-- R115: the counter law, `CNT' = (CNT + len) mod 2^(2*wb)`. -/
def Obligations.CounterLaw : Prop :=
  ∀ s : State, s.Wf → s.fault = false → s.lifecycle = .active → s.lenOperand = 0 ∨ s.InputSpanOk →
    ∃ t, exec .update s = .next t ∧ t.cnt = (s.cnt + s.lenOperand) % 2 ^ (2 * s.cfg.wb)

/-- R114: `safe_shr` is the exact quotient, and it is 0 for every length when `wb >= LW`. -/
def Obligations.ShiftGuard : Prop :=
  ∀ s : State, safeShr s.lenOperand s.cfg.wb = s.lenOperand / 2 ^ s.cfg.wb ∧
    (s.cfg.LW ≤ s.cfg.wb → safeShr s.lenOperand s.cfg.wb = 0)

/-- R32: `VALID` is `CNT_LO mod B`, at most `B - 1`, and it is the stream length modulo `B` even after `CNT_LO` has
wrapped. -/
def Obligations.FillLevelSurvivesWrap : Prop :=
  ∀ s : State, s.Wf → s.valid = s.cntLo % s.cfg.B ∧ s.valid ≤ s.cfg.B - 1 ∧
    ∀ N, s.cntLo = N % 2 ^ s.cfg.wb → s.valid = N % s.cfg.B

/-- R124: an UPDATE of length 0 changes neither the counter nor `ACC` nor `PEND[0..VALID)`, whatever `SRC` holds, and
reads and writes no memory; outside `ACTIVE` it still raises `NOT_ACTIVE`. -/
def Obligations.UpdateOfNoBytes : Prop :=
  ∀ s : State, s.Wf → s.fault = false → s.lenOperand = 0 →
    (s.lifecycle = .active → ∃ t, exec .update s = .next t ∧ t.cntLo = s.cntLo ∧ t.cntHi = s.cntHi ∧
      t.acc = s.acc ∧ t.valid = s.valid ∧ slice 0 s.valid t.pend = slice 0 s.valid s.pend ∧ SameToHost t s) ∧
    (s.lifecycle ≠ .active → exec .update s = .next { s with fault := true, cause := .notActive })

/-- R118: a top-up that does not complete a block copies all input bytes after the pending ones, and issues nothing. -/
def Obligations.PartialTopUp : Prop :=
  ∀ s : State, s.Wf → s.fault = false → s.lifecycle = .active → s.lenOperand = 0 ∨ s.InputSpanOk →
    s.valid ≠ 0 → s.valid + s.lenOperand < s.cfg.B →
    ∃ t, exec .update s = .next t ∧ t.acc = s.acc ∧ slice 0 s.valid t.pend = slice 0 s.valid s.pend ∧
      slice s.valid (s.valid + s.lenOperand) t.pend = s.input

/-- R117: a top-up that completes a block issues the pending bytes with the first `B - num` input bytes as one block,
and the remaining input is taken as fresh bytes: its whole blocks are issued and the bytes after them are what `PEND`
begins with. -/
def Obligations.CompletingTopUp : Prop :=
  ∀ s : State, s.Wf → s.fault = false → s.lifecycle = .active → s.lenOperand = 0 ∨ s.InputSpanOk →
    s.valid ≠ 0 → s.cfg.B ≤ s.valid + s.lenOperand →
    ∃ t, exec .update s = .next t ∧
      t.acc = compress s.cfg
        (s.cfg.applyT s.acc (wordView s.cfg (slice 0 s.valid s.pend ++ slice 0 (s.cfg.B - s.valid) s.input)))
        (slice (s.cfg.B - s.valid) s.lenOperand s.input) ∧
      t.valid = (s.lenOperand - (s.cfg.B - s.valid)) % s.cfg.B ∧
      slice 0 t.valid t.pend = slice (s.lenOperand - t.valid) s.lenOperand s.input

/-- R119, R121: from an empty `PEND`, UPDATE issues the whole blocks of its input in order, each once, and the fewer
than `B` bytes after them are what `PEND` begins with. -/
def Obligations.BlocksThenRemainder : Prop :=
  ∀ s : State, s.Wf → s.fault = false → s.lifecycle = .active → s.lenOperand = 0 ∨ s.InputSpanOk → s.valid = 0 →
    ∃ t, exec .update s = .next t ∧
      t.acc = (List.range (s.lenOperand / s.cfg.B)).foldl
        (fun a i => s.cfg.applyT a (wordView s.cfg (slice (i * s.cfg.B) ((i + 1) * s.cfg.B) s.input))) s.acc ∧
      t.valid = s.lenOperand % s.cfg.B ∧
      slice 0 t.valid t.pend = slice (s.lenOperand / s.cfg.B * s.cfg.B) s.lenOperand s.input

/-- R123 and R49: an UPDATE over a state that holds the stream `S` leaves a state that holds `S` with the input bytes
appended; it issues exactly `floor((N mod B + len) / B)` blocks, the next complete blocks of the stream, in order. -/
def Obligations.UpdateExtendsStream : Prop :=
  ∀ (s : State) (S : List Byte), s.Wf → s.Holds S → s.lenOperand = 0 ∨ s.InputSpanOk →
    ∃ t, exec .update s = .next t ∧ t.Holds (S ++ s.input) ∧ t.valid = (S.length + s.lenOperand) % s.cfg.B ∧
      t.acc = (List.range ((S.length % s.cfg.B + s.lenOperand) / s.cfg.B)).foldl
        (fun a i => s.cfg.applyT a (wordView s.cfg
          (slice (S.length - S.length % s.cfg.B + i * s.cfg.B) (S.length - S.length % s.cfg.B + (i + 1) * s.cfg.B)
            (S ++ s.input)))) s.acc

/-! ### FINALIZE -/

/-- R149, and the frame of FINALIZE: with `LIFECYCLE = ACTIVE` and a valid digest span FINALIZE completes; the digest
bytes stand at `dst`, no other byte of memory changes, and nothing else changes but `LIFECYCLE`, which is `FINALIZED`,
and the four registers R150 leaves unspecified. -/
def Obligations.FinalizeWritesDigest : Prop :=
  ∀ s : State, s.Wf → s.fault = false → s.lifecycle = .active → s.DigestSpanOk →
    ∃ t, exec .finalize s = .next t ∧ t.lifecycle = .finalized ∧
      DigestAt s.cfg t.mem s.dstOperand s.finalAcc ∧
      (∀ a, a < s.dstOperand ∨ s.dstOperand + s.cfg.H ≤ a → t.mem.read a = s.mem.read a) ∧
      t.cfg = s.cfg ∧ t.fault = s.fault ∧ t.cause = s.cause ∧ t.src = s.src ∧ t.len = s.len ∧ t.dst = s.dst ∧
      t.rdata = s.rdata ∧ t.script = s.script

/-- R142: the bit-count law, `BC_HI * 2^wb + BC_LO = (8 * CNT) mod 2^(2*wb)`, with both words of `wb` bits; for a stream
of `N` bytes that is `(8 * N) mod 2^(2*wb)`. -/
def Obligations.BitCountLaw : Prop :=
  ∀ s : State, s.Wf →
    (bitCount s.cfg s.cntLo s.cntHi).2 * 2 ^ s.cfg.wb + (bitCount s.cfg s.cntLo s.cntHi).1
        = 8 * s.cnt % 2 ^ (2 * s.cfg.wb) ∧
      (bitCount s.cfg s.cntLo s.cntHi).1 < 2 ^ s.cfg.wb ∧ (bitCount s.cfg s.cntLo s.cntHi).2 < 2 ^ s.cfg.wb ∧
      ∀ S, s.Holds S →
        (bitCount s.cfg s.cntLo s.cntHi).2 * 2 ^ s.cfg.wb + (bitCount s.cfg s.cntLo s.cntHi).1
          = 8 * S.length % 2 ^ (2 * s.cfg.wb)

/-- R143, R144, R148: when the pad byte and the length field fit, FINALIZE issues one block: the pending bytes, `0x80`,
zeros up to `L`, and the length field (its two slots are G1's reading, log 16). -/
def Obligations.OneFinalBlock : Prop :=
  ∀ s : State, s.Wf → s.fault = false → s.lifecycle = .active → s.DigestSpanOk → s.valid + 1 ≤ s.cfg.lenField →
    ∃ t, exec .finalize s = .next t ∧
      DigestAt s.cfg t.mem s.dstOperand (s.cfg.applyT s.acc (wordView s.cfg
        (slice 0 s.valid s.pend ++ [0x80] ++ zeros (s.cfg.lenField - (s.valid + 1))
          ++ lengthField s.cfg s.cnt)))

/-- R143, R145, R148: when they do not fit, FINALIZE issues two blocks: the pending bytes, `0x80` and zeros to the end,
and then `L` zeros and the length field (its two slots are G1's reading, log 16). When `B = 2*W` this is every
FINALIZE. -/
def Obligations.TwoFinalBlocks : Prop :=
  ∀ s : State, s.Wf → s.fault = false → s.lifecycle = .active → s.DigestSpanOk →
    (s.cfg.lenField < s.valid + 1 →
      ∃ t, exec .finalize s = .next t ∧
        DigestAt s.cfg t.mem s.dstOperand (s.cfg.applyT
          (s.cfg.applyT s.acc (wordView s.cfg
            (slice 0 s.valid s.pend ++ [0x80] ++ zeros (s.cfg.B - (s.valid + 1)))))
          (wordView s.cfg (zeros s.cfg.lenField ++ lengthField s.cfg s.cnt)))) ∧
    (s.cfg.B = 2 * s.cfg.W → s.cfg.lenField < s.valid + 1)

/-- R146: the low bit-count word goes to slot `NW - 2 + OFFSET` and the high one to slot `NW - 1 - OFFSET`, the last two
word slots of the block; the bytes before `L` stay. The slot formula is the spec's own reading (G1, log 16). -/
def Obligations.LengthFieldSlots : Prop :=
  ∀ (c : Config) (lo hi : Word) (blk : List Byte), c.wf = true → blk.length = c.B →
    (putLength c (lo, hi) blk).length = c.B ∧
    slice 0 c.lenField (putLength c (lo, hi) blk) = slice 0 c.lenField blk ∧
    slice ((c.nw - 2 + c.offset) * c.W) ((c.nw - 2 + c.offset + 1) * c.W) (putLength c (lo, hi) blk) = serWord c lo ∧
    slice ((c.nw - 1 - c.offset) * c.W) ((c.nw - 1 - c.offset + 1) * c.W) (putLength c (lo, hi) blk) = serWord c hi ∧
    (c.offset = 0 → (c.nw - 2 + c.offset) * c.W = c.lenField ∧ (c.nw - 1 - c.offset) * c.W = c.lenField + c.W) ∧
    (c.offset = 1 → (c.nw - 1 - c.offset) * c.W = c.lenField ∧ (c.nw - 2 + c.offset) * c.W = c.lenField + c.W)

/-- R147: the transform reads the two length words back unchanged in its word view; with `(LE, 0)` and `(BE, 1)` the
bytes `[L, B)` are the `2*W`-byte little-endian and big-endian encoding of the bit count, and with `(LE, 1)` and
`(BE, 0)` those encodings with the two words swapped. -/
def Obligations.LengthFieldReadsBack : Prop :=
  ∀ (c : Config) (lo hi : Word) (blk : List Byte), c.wf = true → blk.length = c.B →
    lo < 2 ^ c.wb → hi < 2 ^ c.wb →
    (wordView c (putLength c (lo, hi) blk)).getD c.loSlot 0 = lo ∧
    (wordView c (putLength c (lo, hi) blk)).getD c.hiSlot 0 = hi ∧
    ∀ i < 2 * c.W, (putLength c (lo, hi) blk).getD (c.lenField + i) 0 = BitVec.ofNat 8
      (match c.order with
        | .le => (if c.offset = 0 then hi * 2 ^ c.wb + lo else lo * 2 ^ c.wb + hi) / 2 ^ (8 * i)
        | .be => (if c.offset = 1 then hi * 2 ^ c.wb + lo else lo * 2 ^ c.wb + hi) / 2 ^ (8 * (2 * c.W - 1 - i)))

/-- R69: `ser_ORDER(v)` is the one sequence of `W` bytes that `asm_ORDER` takes to `v`, with the closed form of each
byte. -/
def Obligations.SerialisingInvertsAssembling : Prop :=
  ∀ (c : Config) (v : Word), v < 2 ^ c.wb →
    (∀ b : List Byte, b.length = c.W → (asmWord c b = v ↔ b = serWord c v)) ∧
    (serWord c v).length = c.W ∧
    ∀ i < c.W, ((serWord c v).getD i 0).toNat =
      match c.order with
      | .le => v / 2 ^ (8 * i) % 256
      | .be => v / 2 ^ (8 * (c.W - 1 - i)) % 256

/-- R151: FINALIZE over a state that holds the stream `S` completes, and the digest is that of `F` over the blocks of
the padded message `S ++ [0x80] ++ zeros(z) ++ LF` from `IV`; `z` is the least zero count that makes whole blocks; and
the empty stream gives the block or blocks of R151. The slots of `LF` are G1's reading (log 16). -/
def Obligations.FinalizeHashesPaddedStream : Prop :=
  (∀ (s : State) (S : List Byte), s.Wf → s.Holds S → s.DigestSpanOk →
    ∃ t, exec .finalize s = .next t ∧ t.lifecycle = .finalized ∧ t.fault = false ∧
      DigestAt s.cfg t.mem s.dstOperand (streamAcc s.cfg S) ∧
      ∀ a, a < s.dstOperand ∨ s.dstOperand + s.cfg.H ≤ a → t.mem.read a = s.mem.read a) ∧
  (∀ (c : Config) (N : Nat), c.wf = true →
    (N + 1 + zeroCount c N + 2 * c.W) % c.B = 0 ∧
      ∀ z, (N + 1 + z + 2 * c.W) % c.B = 0 → zeroCount c N ≤ z) ∧
  ∀ c : Config, c.wf = true →
    (1 ≤ c.lenField → blocksOf c (paddedMessage c []) = [[0x80] ++ zeros (c.lenField - 1) ++ zeros (2 * c.W)]) ∧
      (c.lenField = 0 → blocksOf c (paddedMessage c []) = [[0x80] ++ zeros (c.B - 1), zeros (2 * c.W)])

/-- R152, R151: how many blocks are issued over a stream `S`, whose padded message has `(N + 1 + z + 2*W) / B` blocks.
Before FINALIZE the accumulator is the fold of the transform over the first of them, those wholly inside `S`; FINALIZE
issues the ones after those, in order, and no other: one when `VALID <= L - 1` and two when `VALID >= L`; and the digest
is that of the accumulator it ends with. The slots of the length field are G1's reading (log 16). -/
def Obligations.IssueCounts : Prop :=
  (∀ (c : Config) (S : List Byte), c.wf = true →
    (blocksOf c (paddedMessage c S)).length = (S.length + 1 + zeroCount c S.length + 2 * c.W) / c.B ∧
      (blocksOf c (paddedMessage c S)).length = (blocksOf c S).length + if S.length % c.B < c.lenField then 1 else 2) ∧
  ∀ (s : State) (S : List Byte), s.Wf → s.Holds S →
    let blocks := blocksOf s.cfg (paddedMessage s.cfg S)
    let inside := blocks.take (S.length / s.cfg.B)
    let final := blocks.drop (S.length / s.cfg.B)
    inside = blocksOf s.cfg S ∧
      s.acc = inside.foldl (fun a blk => s.cfg.applyT a (wordView s.cfg blk)) s.cfg.iv ∧
      final.length = (if s.valid < s.cfg.lenField then 1 else 2) ∧
      s.finalAcc = final.foldl (fun a blk => s.cfg.applyT a (wordView s.cfg blk)) s.acc ∧
      (s.DigestSpanOk → ∃ t, exec .finalize s = .next t ∧ t.lifecycle = .finalized ∧
        DigestAt s.cfg t.mem s.dstOperand
          (final.foldl (fun a blk => s.cfg.applyT a (wordView s.cfg blk)) s.acc))

/-- R204, R203: after a FINALIZE that did not fault, UPDATE and FINALIZE fault with `NOT_ACTIVE`, and INIT starts
another stream. -/
def Obligations.FinalizedEngineNeedsInit : Prop :=
  ∀ s t : State, s.fault = false → exec .finalize s = .next t → t.fault = false →
    exec .update t = .next { t with fault := true, cause := .notActive } ∧
    exec .finalize t = .next { t with fault := true, cause := .notActive } ∧
    ∃ u, exec .init t = .next u ∧ u.lifecycle = .active ∧ u.fault = false

/-! ### Faults -/

/-- R174: UPDATE and FINALIZE outside `ACTIVE` raise `NOT_ACTIVE`, code 2, and INIT never raises it. -/
def Obligations.NotActiveFault : Prop :=
  (∀ s : State, s.fault = false → s.lifecycle = .uninit ∨ s.lifecycle = .finalized →
    exec .update s = .next { s with fault := true, cause := .notActive } ∧
      exec .finalize s = .next { s with fault := true, cause := .notActive }) ∧
    (∀ s t : State, s.fault = false → exec .init s = .next t → t.fault = false) ∧ Cause.notActive.code = 2

/-- R175: UPDATE with `len > 0` and an invalid input span raises `INPUT_SPAN`, code 3. -/
def Obligations.InputSpanFault : Prop :=
  (∀ s : State, s.cfg.wf = true → s.fault = false → s.lifecycle = .active → 0 < s.lenOperand →
    2 ^ s.cfg.AW < s.srcOperand + s.lenOperand ∨
      (∃ k < s.lenOperand, s.cfg.readable.has (s.srcOperand + k) = false) →
    exec .update s = .next { s with fault := true, cause := .inputSpan }) ∧ Cause.inputSpan.code = 3

/-- R176: FINALIZE with an invalid digest span raises `DIGEST_SPAN`, code 4. -/
def Obligations.DigestSpanFault : Prop :=
  (∀ s : State, s.cfg.wf = true → s.fault = false → s.lifecycle = .active →
    2 ^ s.cfg.AW < s.dstOperand + s.cfg.H ∨
      (∃ k < s.cfg.H, s.cfg.writable.has (s.dstOperand + k) = false) →
    exec .finalize s = .next { s with fault := true, cause := .digestSpan }) ∧ Cause.digestSpan.code = 4

/-- R177: the order of the checks of a `CMD` write; the first that applies wins, and when none does, no fault is
raised. -/
def Obligations.FaultPriority : Prop :=
  ∀ (c : BitVec 32) (s : State), s.cfg.wf = true →
    ∃ t, commandWrite c s = .next t ∧
      (s.fault = true → t = s) ∧
      (s.fault = false →
        ((c ≠ 1 ∧ c ≠ 2 ∧ c ≠ 3) → t = { s with fault := true, cause := .illegalCommand }) ∧
        ((c = 2 ∨ c = 3) → s.lifecycle ≠ .active → t = { s with fault := true, cause := .notActive }) ∧
        (c = 2 → s.lifecycle = .active → 0 < s.lenOperand → ¬s.InputSpanOk →
          t = { s with fault := true, cause := .inputSpan }) ∧
        (c = 3 → s.lifecycle = .active → ¬s.DigestSpanOk → t = { s with fault := true, cause := .digestSpan }) ∧
        (c = 1 ∨ (c = 2 ∧ s.lifecycle = .active ∧ (s.lenOperand = 0 ∨ s.InputSpanOk)) ∨
            (c = 3 ∧ s.lifecycle = .active ∧ s.DigestSpanOk) → t.fault = false))

/-- R179, R172: faults are precise. A `CMD` write that raises a fault changes `FAULT` and `CAUSE` and nothing else. -/
def Obligations.FaultsArePrecise : Prop :=
  ∀ (c : BitVec 32) (s t : State), commandWrite c s = .next t → s.fault = false → t.fault = true →
    t = { s with fault := true, cause := t.cause } ∧ t.cause ≠ .none

/-- R178: while `FAULT = 1` every `CMD` write is ignored, and the Host can still read `STATUS` and read and write `SRC`,
`LEN` and `DST`. -/
def Obligations.QuiescentWhileFaulted : Prop :=
  ∀ (s : State) (rest : List HostAccess), s.cfg.wf = true → s.fault = true →
    (∀ v, s.script = .write s.cfg.base 32 v :: rest → step s = .next (s.withScript rest)) ∧
    (s.script = .read (s.cfg.base + 0x04) 32 :: rest →
      step s = .next { s with script := rest, rdata := s.status.setWidth 64 }) ∧
    (∀ (r : Reg) (v : BitVec 64), r = .src ∨ r = .len ∨ r = .dst → s.script = r.put s.cfg v :: rest →
      ∃ t, step s = .next t ∧ t.cause = s.cause ∧ t.fault = true ∧ t.mem = s.mem ∧
        (r = .src → t.src = BitVec.ofNat 64 (v.toNat % 2 ^ s.cfg.AW)) ∧
        (r = .len → t.len = BitVec.ofNat 64 (v.toNat % 2 ^ s.cfg.LW)) ∧
        (r = .dst → t.dst = BitVec.ofNat 64 (v.toNat % 2 ^ s.cfg.AW))) ∧
    ∀ r : Reg, r = .src ∨ r = .len ∨ r = .dst → s.script = r.get s.cfg :: rest →
      ∃ t, step s = .next t ∧ t.cause = s.cause ∧ t.fault = true ∧ t.mem = s.mem ∧
        (r = .src → t.rdata = BitVec.ofNat 64 (s.src.toNat % 2 ^ s.cfg.AW)) ∧
        (r = .len → t.rdata = BitVec.ofNat 64 (s.len.toNat % 2 ^ s.cfg.LW)) ∧
        (r = .dst → t.rdata = BitVec.ofNat 64 (s.dst.toNat % 2 ^ s.cfg.AW))

/-- A command by itself is ignored too while `FAULT = 1`: the model's meanings carry the check of R87 (log 15). -/
def Obligations.CommandsIgnoredWhileFaulted : Prop :=
  ∀ (i : Instr) (s : State), s.fault = true → exec i s = .next s

/-- R183, R180: reset clears a fault and sets the other registers of R48; INIT does not clear it, and no other step of
the machine does. -/
def Obligations.OnlyResetClearsFault : Prop :=
  ∀ s t : State, step s = .next t → s.fault = true →
    (s.script.head? = some .reset → t.fault = false ∧ t.cause = .none ∧ t.lifecycle = .uninit ∧ t.src = 0 ∧ t.len = 0 ∧
      t.dst = 0) ∧
    (s.script.head? ≠ some .reset → t.fault = true ∧ t.cause = s.cause ∧ t.lifecycle = s.lifecycle ∧
      t.acc = s.acc ∧ t.pend = s.pend ∧ t.cntLo = s.cntLo ∧ t.cntHi = s.cntHi)

/-! ### Whole-machine rules -/

/-- Every command answers a next state, in every state: the engine's faults are entries (R170, R172), and no meaning
stops. -/
def Obligations.EveryCommandAnswers : Prop :=
  ∀ (i : Instr) (s : State), ∃ t, exec i s = .next t

/-- What no command writes: the configuration, `SRC`, `LEN`, `DST`, the Host's last read and its pending accesses; and
INIT and UPDATE write no byte of memory (R83, R20, R60). -/
def Obligations.NoCommandWritesOperands : Prop :=
  ∀ (i : Instr) (s t : State), exec i s = .next t →
    t.cfg = s.cfg ∧ t.src = s.src ∧ t.len = s.len ∧ t.dst = s.dst ∧ t.rdata = s.rdata ∧ t.script = s.script ∧
      (i ≠ .finalize → ∀ a, t.mem.read a = s.mem.read a) ∧
      ∀ a, a < s.dstOperand ∨ s.dstOperand + s.cfg.H ≤ a → s.cfg.wf = true → t.mem.read a = s.mem.read a

/-- What changes `LIFECYCLE` (R36): only an INIT makes it `ACTIVE`, only a FINALIZE from `ACTIVE` makes it `FINALIZED`,
and only reset makes it `UNINIT`. -/
def Obligations.LifecycleMoves : Prop :=
  ∀ s t : State, step s = .next t → t.lifecycle ≠ s.lifecycle →
    (t.lifecycle = .uninit ∧ s.script.head? = some .reset) ∨
    (∃ v, s.script.head? = some (.write s.cfg.base 32 v) ∧ s.fault = false ∧ t.fault = false ∧
      ((t.lifecycle = .active ∧ decode (v.setWidth 32) = .ok .init) ∨
        (t.lifecycle = .finalized ∧ s.lifecycle = .active ∧ decode (v.setWidth 32) = .ok .finalize)))

/-- R33, R65: UPDATE and FINALIZE depend on the bytes they are given and on the valid bytes pending, not on where the
spans stand and not on `PEND[VALID..B)`: two states that agree on the rest take in the same bytes to the same state,
and write the same digest bytes. -/
def Obligations.AlignmentAndTailDoNotMatter : Prop :=
  ∀ s s' : State, s.Wf → s'.Wf → s.fault = false → s'.fault = false → s.lifecycle = .active → s'.lifecycle = .active →
    s.cfg = s'.cfg → s.acc = s'.acc → s.cntLo = s'.cntLo → s.cntHi = s'.cntHi →
    slice 0 s.valid s.pend = slice 0 s'.valid s'.pend →
    (s.lenOperand = 0 ∨ s.InputSpanOk → s'.lenOperand = 0 ∨ s'.InputSpanOk → s.input = s'.input →
      ∃ t t', exec .update s = .next t ∧ exec .update s' = .next t' ∧ t.fault = false ∧ t'.fault = false ∧
        t.acc = t'.acc ∧ t.cntLo = t'.cntLo ∧ t.cntHi = t'.cntHi ∧ t.lifecycle = t'.lifecycle ∧
        slice 0 t.valid t.pend = slice 0 t'.valid t'.pend) ∧
    (s.DigestSpanOk → s'.DigestSpanOk →
      ∃ t t', exec .finalize s = .next t ∧ exec .finalize s' = .next t' ∧ t.fault = false ∧ t'.fault = false ∧
        ∀ k < s.cfg.H, t.mem.read (s.dstOperand + k) = t'.mem.read (s'.dstOperand + k))

/-- R46: what the Host can look at after a step does not depend on `PEND`, `ACC`, `CNT_LO` and `CNT_HI`, but for the
digest bytes of a FINALIZE. -/
def Obligations.HiddenStateIsHidden : Prop :=
  ∀ s s' t : State, SameToHost s s' → step s = .next t →
    ∃ t', step s' = .next t' ∧ t.cfg = t'.cfg ∧ t.lifecycle = t'.lifecycle ∧ t.fault = t'.fault ∧ t.cause = t'.cause ∧
      t.status = t'.status ∧ t.src = t'.src ∧ t.len = t'.len ∧ t.dst = t'.dst ∧ t.rdata = t'.rdata ∧
      t.script = t'.script ∧
      ∀ a, t.mem.read a = t'.mem.read a ∨
        (s.dstOperand ≤ a ∧ a < s.dstOperand + s.cfg.H ∧
          ∃ v, s.script.head? = some (.write s.cfg.base 32 v) ∧ decode (v.setWidth 32) = .ok .finalize)

/-! ### Interface registers, host memory and reset -/

/-- R40: the fields of `STATUS`; `LC` never reads 3; a Host write to `STATUS` is ignored, and a read returns it and has
no side effect. -/
def Obligations.StatusRegister : Prop :=
  (∀ s : State,
    s.status.extractLsb' 0 2 = (match s.lifecycle with | .uninit => 0 | .active => 1 | .finalized => 2) ∧
    s.status.extractLsb' 0 2 ≠ 3 ∧
    s.status.extractLsb' 2 1 = (if s.fault then 1 else 0) ∧ s.status.extractLsb' 3 1 = 0 ∧
    s.status.extractLsb' 4 4 = (match s.cause with
      | .none => 0 | .illegalCommand => 1 | .notActive => 2 | .inputSpan => 3 | .digestSpan => 4) ∧
    s.status.extractLsb' 8 24 = 0) ∧
  ∀ (s : State) (rest : List HostAccess), s.cfg.wf = true →
    (∀ v, s.script = .write (s.cfg.base + 0x04) 32 v :: rest → step s = .next (s.withScript rest)) ∧
    (s.script = .read (s.cfg.base + 0x04) 32 :: rest →
      step s = .next { s with script := rest, rdata := s.status.setWidth 64 })

/-- R39: a Host write to `CMD` issues the command that its 32 bits encode; a Host read of `CMD` returns 0 and has no
effect. -/
def Obligations.CommandRegister : Prop :=
  ∀ (s : State) (rest : List HostAccess), s.cfg.wf = true →
    (∀ v, s.script = .write s.cfg.base 32 v :: rest →
      step s = commandWrite (v.setWidth 32) (s.withScript rest)) ∧
    (s.script = .read s.cfg.base 32 :: rest → step s = .next { s with script := rest, rdata := 0 })

/-- R41, R42, R43: a Host write of `v` to `SRC`, `LEN` or `DST` stores the low `AW`, `LW` or `AW` bits of `v` and
changes nothing else; a read returns the register, whose bits above are 0; and no command writes it. -/
def Obligations.OperandRegisters : Prop :=
  (∀ (s : State) (rest : List HostAccess) (v : BitVec 64), s.cfg.wf = true →
    (s.script = .write (s.cfg.base + 0x08) 64 v :: rest →
      step s = .next { s with script := rest, src := BitVec.ofNat 64 (v.toNat % 2 ^ s.cfg.AW) }) ∧
    (s.script = .write (s.cfg.base + 0x10) 64 v :: rest →
      step s = .next { s with script := rest, len := BitVec.ofNat 64 (v.toNat % 2 ^ s.cfg.LW) }) ∧
    (s.script = .write (s.cfg.base + 0x18) 64 v :: rest →
      step s = .next { s with script := rest, dst := BitVec.ofNat 64 (v.toNat % 2 ^ s.cfg.AW) })) ∧
  (∀ (s : State) (rest : List HostAccess), s.Wf →
    (s.script = .read (s.cfg.base + 0x08) 64 :: rest →
      step s = .next { s with script := rest, rdata := s.src }) ∧
    (s.script = .read (s.cfg.base + 0x10) 64 :: rest →
      step s = .next { s with script := rest, rdata := s.len }) ∧
    (s.script = .read (s.cfg.base + 0x18) 64 :: rest →
      step s = .next { s with script := rest, rdata := s.dst }) ∧
    s.src >>> s.cfg.AW = 0 ∧ s.len >>> s.cfg.LW = 0 ∧ s.dst >>> s.cfg.AW = 0) ∧
  ∀ (i : Instr) (s t : State), exec i s = .next t → t.src = s.src ∧ t.len = s.len ∧ t.dst = s.dst

/-- R44: a register access goes through only at the offset and with the full width of one of the five registers; the
model refuses every other one, a byte access in the register window among them. -/
def Obligations.OtherAccessesAreRefused : Prop :=
  ∀ (s : State) (rest : List HostAccess), s.cfg.wf = true →
    (∀ a w v, s.script = .write a w v :: rest → (step s = .refused .interfaceAccess ↔
      ¬((a = s.cfg.base ∧ w = 32) ∨ (a = s.cfg.base + 0x04 ∧ w = 32) ∨ (a = s.cfg.base + 0x08 ∧ w = 64) ∨
        (a = s.cfg.base + 0x10 ∧ w = 64) ∨ (a = s.cfg.base + 0x18 ∧ w = 64)))) ∧
    (∀ a w, s.script = .read a w :: rest → (step s = .refused .interfaceAccess ↔
      ¬((a = s.cfg.base ∧ w = 32) ∨ (a = s.cfg.base + 0x04 ∧ w = 32) ∨ (a = s.cfg.base + 0x08 ∧ w = 64) ∨
        (a = s.cfg.base + 0x10 ∧ w = 64) ∨ (a = s.cfg.base + 0x18 ∧ w = 64)))) ∧
    (∀ a b, s.script = .store a b :: rest → s.cfg.base ≤ a → a < s.cfg.base + 0x20 →
      step s = .refused .interfaceAccess) ∧
    ∀ a, s.script = .load a :: rest → s.cfg.base ≤ a → a < s.cfg.base + 0x20 → step s = .refused .interfaceAccess

/-- Host memory (R60, R67): a byte that the Host stores is the byte it reads, every other byte stays, and a load changes
nothing but what it returns; an address outside `[0, 2^AW)` does not exist (log 10, 11). -/
def Obligations.HostMemory : Prop :=
  ∀ (s : State) (rest : List HostAccess) (a : Nat), s.Wf → ¬(s.cfg.base ≤ a ∧ a < s.cfg.base + 0x20) →
    (∀ b, s.script = .store a b :: rest → a < 2 ^ s.cfg.AW →
      ∃ t, step s = .next t ∧ t.mem.read a = b ∧ (∀ x, x ≠ a → t.mem.read x = s.mem.read x) ∧
        t = { s with script := rest, mem := t.mem }) ∧
    (s.script = .load a :: rest → a < 2 ^ s.cfg.AW →
      step s = .next { s with script := rest, rdata := (s.mem.read a).setWidth 64 }) ∧
    (∀ b, s.script = .store a b :: rest → 2 ^ s.cfg.AW ≤ a → step s = .fault (.noSuchAddress a)) ∧
    (s.script = .load a :: rest → 2 ^ s.cfg.AW ≤ a → step s = .fault (.noSuchAddress a))

/-- R200: reset, whatever the state before, sets `LIFECYCLE`, `FAULT`, `CAUSE`, `SRC`, `LEN` and `DST` to their values
of R48, accesses no memory and does not change the configuration. -/
def Obligations.ResetSetsState : Prop :=
  ∀ (s : State) (rest : List HostAccess), s.cfg.wf = true → s.script = .reset :: rest →
    ∃ t, step s = .next t ∧ t.lifecycle = .uninit ∧ t.fault = false ∧ t.cause = .none ∧ t.src = 0 ∧ t.len = 0 ∧
      t.dst = 0 ∧ t.status = 0x00000000 ∧ t.mem = s.mem ∧ t.cfg = s.cfg ∧ t.script = rest

/-- R48: the state after reset, at power-on, for every configuration. -/
def Obligations.PowerOnState : Prop :=
  (∀ c : Config, (State.powerOn c).lifecycle = .uninit ∧ (State.powerOn c).fault = false ∧
    (State.powerOn c).cause = .none ∧ (State.powerOn c).src = 0 ∧ (State.powerOn c).len = 0 ∧
    (State.powerOn c).dst = 0 ∧ (State.powerOn c).status = 0x00000000 ∧ (State.powerOn c).cfg = c) ∧
  ∃ c : Config, State.reset = State.powerOn c

/-! ### Invariants and the whole stream -/

/-- The state after reset meets the invariant, in every configuration that has a machine. -/
def Obligations.ResetIsWellFormed : Prop :=
  State.reset.Wf ∧ ∀ c : Config, c.wf = true → (State.powerOn c).Wf

/-- Every step keeps the invariant: the registers keep their widths (R31 to R43), memory keeps its canonical form over
`[0, 2^AW)` (R60), and `CAUSE` is `NONE` exactly while `FAULT = 0` (R171). -/
def Obligations.StepKeepsWellFormed : Prop :=
  ∀ s t : State, s.Wf → step s = .next t → t.Wf

/-- R49: the invariant between commands is kept by every step that leaves the engine `ACTIVE` with `FAULT = 0`: an INIT
starts the empty stream, an UPDATE appends its input bytes, and any other access, one that is no CMD write of INIT or
UPDATE, leaves the stream as it is. -/
def Obligations.StreamInvariantKept : Prop :=
  ∀ (s t : State) (S : List Byte), s.Wf →
    (s.lifecycle = .active → s.fault = false → s.Holds S) →
    step s = .next t → t.lifecycle = .active → t.fault = false →
    (∃ v, s.script.head? = some (.write s.cfg.base 32 v) ∧ decode (v.setWidth 32) = .ok .init ∧ t.Holds []) ∨
    (∃ v, s.script.head? = some (.write s.cfg.base 32 v) ∧ decode (v.setWidth 32) = .ok .update ∧
      t.Holds (S ++ s.input)) ∨
    (s.lifecycle = .active ∧ s.fault = false ∧ t.Holds S ∧
      ∀ v, s.script.head? = some (.write s.cfg.base 32 v) →
        decode (v.setWidth 32) ≠ .ok .init ∧ decode (v.setWidth 32) ≠ .ok .update)

/-- The whole control flow of one stream (R90, R151): from any state with `FAULT = 0`, INIT, any number of UPDATEs over
valid spans and FINALIZE over a valid span end well, and the digest of the concatenated bytes stands at `dst`, with
every other byte of memory as before. The slots of the length field are G1's reading (log 16). -/
def Obligations.StreamProgramHashes : Prop :=
  ∀ (s : State) (spans : List (BitVec 64 × BitVec 64)) (dst : BitVec 64), s.Wf → s.fault = false →
    s.script = streamProgram s.cfg spans dst → SpansOk s.cfg spans →
    dst.toNat % 2 ^ s.cfg.AW + s.cfg.H ≤ 2 ^ s.cfg.AW →
    (∀ k < s.cfg.H, s.cfg.writable.has (dst.toNat % 2 ^ s.cfg.AW + k) = true) →
    ∃ t, EndsWell s.script.length s t ∧ t.status = 0x00000002 ∧ t.script = [] ∧
      DigestAt s.cfg t.mem (dst.toNat % 2 ^ s.cfg.AW) (streamAcc s.cfg (spansBytes s.cfg s.mem spans)) ∧
      ∀ a, a < dst.toNat % 2 ^ s.cfg.AW ∨ dst.toNat % 2 ^ s.cfg.AW + s.cfg.H ≤ a → t.mem.read a = s.mem.read a

/-- Chunking invariance (95_test_vectors.md P1, R123): two runs over the same bytes, split into UPDATEs in any two ways
and read from any two places, write the same digest bytes. -/
def Obligations.ChunkingInvariance : Prop :=
  ∀ (s s' t t' : State) (spans spans' : List (BitVec 64 × BitVec 64)) (dst dst' : BitVec 64),
    s.Wf → s'.Wf → s.cfg = s'.cfg → s.fault = false → s'.fault = false →
    s.script = streamProgram s.cfg spans dst → s'.script = streamProgram s'.cfg spans' dst' →
    spansBytes s.cfg s.mem spans = spansBytes s'.cfg s'.mem spans' →
    EndsWell s.script.length s t → EndsWell s'.script.length s' t' →
    ∀ k < s.cfg.H, t.mem.read (dst.toNat % 2 ^ s.cfg.AW + k) = t'.mem.read (dst'.toNat % 2 ^ s.cfg.AW + k)
end

