-- ==== Sys2Proof/Laws/AddrSet.lean ====
section
/-! SUPPORT. Address sets: for a set in canonical form, the span test says that every address of the span is in it. -/

namespace Sys2Proof

theorem AddrSet.has_iff {S : AddrSet} {a : Nat} : S.has a = true ↔ ∃ r ∈ S, r.lo ≤ a ∧ a < r.hi := by
  simp [AddrSet.has]

theorem AddrSet.canonical_cons {r : AddrRange} {S : AddrSet} :
    AddrSet.canonical (r :: S) = true ↔
      r.lo < r.hi ∧ (∀ x ∈ S, r.hi < x.lo) ∧ AddrSet.canonical S = true := by
  induction S generalizing r with
  | nil => simp [AddrSet.canonical]
  | cons r' S ih =>
    simp only [AddrSet.canonical, Bool.and_eq_true, decide_eq_true_eq, List.mem_cons, forall_eq_or_imp]
    constructor
    · rintro ⟨⟨h1, h2⟩, h3⟩
      have := ih.1 h3
      exact ⟨h1, ⟨h2, fun x hx => by have := this.2.1 x hx; have := this; omega⟩, h3⟩
    · rintro ⟨h1, ⟨h2, -⟩, h3⟩
      exact ⟨⟨h1, h2⟩, h3⟩

/-- No range of a canonical set is empty. -/
theorem AddrSet.lo_lt_hi {S : AddrSet} (hS : S.canonical = true) {r : AddrRange} (hr : r ∈ S) : r.lo < r.hi := by
  induction S with
  | nil => simp at hr
  | cons q S ih =>
    obtain ⟨hq, -, hS'⟩ := AddrSet.canonical_cons.1 hS
    rcases List.mem_cons.1 hr with rfl | hr
    · exact hq
    · exact ih hS' hr

/-- In a canonical set, the address just past the end of a range is not in the set. -/
theorem AddrSet.hi_not_mem {S : AddrSet} (hS : S.canonical = true) {r : AddrRange} (hr : r ∈ S) :
    S.has r.hi = false := by
  have key : ∀ x ∈ S, ¬(x.lo ≤ r.hi ∧ r.hi < x.hi) := by
    induction S with
    | nil => simp
    | cons q S ih =>
      obtain ⟨hq, hqs, hS'⟩ := AddrSet.canonical_cons.1 hS
      rintro x hx ⟨h1, h2⟩
      rcases List.mem_cons.1 hr with hr' | hr' <;> rcases List.mem_cons.1 hx with hx' | hx'
      · subst hr'; subst hx'; omega
      · subst hr'; have := hqs x hx'; omega
      · subst hx'; have := hqs r hr'; have := AddrSet.lo_lt_hi hS' hr'; omega
      · exact ih hS' hr' x hx' ⟨h1, h2⟩
  rw [Bool.eq_false_iff]
  intro h
  obtain ⟨x, hx, h12⟩ := AddrSet.has_iff.1 h
  exact key x hx h12

/-- The span test of a canonical set is R61's and R63's own condition. -/
theorem AddrSet.hasSpan_iff {S : AddrSet} (hS : S.canonical = true) (a n : Nat) :
    S.hasSpan a n = true ↔ ∀ k < n, S.has (a + k) = true := by
  simp only [AddrSet.hasSpan, Bool.or_eq_true, beq_iff_eq, List.any_eq_true, decide_eq_true_eq]
  constructor
  · rintro (rfl | ⟨r, hr, h1, h2⟩) k hk
    · omega
    · exact AddrSet.has_iff.2 ⟨r, hr, by omega, by omega⟩
  · intro h
    by_cases hn : n = 0
    · exact .inl hn
    · right
      obtain ⟨r, hr, h1, h2⟩ := AddrSet.has_iff.1 (h 0 (by omega))
      refine ⟨r, hr, by omega, ?_⟩
      by_contra hc
      have := h (r.hi - a) (by omega)
      rw [show a + (r.hi - a) = r.hi by omega, AddrSet.hi_not_mem hS hr] at this
      cases this

end Sys2Proof
end

