-- ==== Sys2Proof/Laws/Lists.lean ====
section
/-! SUPPORT. Byte ranges: the laws of `slice` and `patch`. -/

namespace Sys2Proof.Machine

variable {α : Type}

@[simp] theorem slice_zero (b : Nat) (S : List α) : slice 0 b S = S.take b := by simp [slice]

@[simp] theorem length_slice (a b : Nat) (S : List α) : (slice a b S).length = min (b - a) (S.length - a) := by
  simp [slice]

/-- A slice that starts beyond a prefix is a slice of what follows it. -/
theorem slice_append_right {a b : Nat} {X Y : List α} (h : X.length ≤ a) :
    slice a b (X ++ Y) = slice (a - X.length) (b - X.length) Y := by
  simp only [slice, List.drop_append, List.drop_eq_nil_of_le h, List.nil_append]
  congr 1
  omega

/-- A slice that ends within a prefix is a slice of it. -/
theorem slice_append_left {a b : Nat} {X Y : List α} (h : b ≤ X.length) :
    slice a b (X ++ Y) = slice a b X := by
  simp only [slice, List.drop_append, List.take_append, List.length_drop]
  rw [show b - a - (X.length - a) = 0 by omega]
  simp

theorem length_patch {a : Nat} {xs S : List α} (h : a + xs.length ≤ S.length) :
    (patch a xs S).length = S.length := by
  simp [patch]; omega

/-- The bytes before the patch stay. -/
theorem take_patch {a n : Nat} {xs S : List α} (hn : n ≤ a) (ha : a ≤ S.length) :
    (patch a xs S).take n = S.take n := by
  have : (S.take a ++ (xs ++ S.drop (a + xs.length))).take n = (S.take a).take n := by
    rw [List.take_append_of_le_length]; simp; omega
  rw [patch, List.append_assoc, this, List.take_take, Nat.min_eq_left hn]

/-- The first bytes after a patch are those before it, and the patch. -/
theorem take_patch_end {a n : Nat} {xs S : List α} (ha : a ≤ S.length) (hn : n = a + xs.length) :
    (patch a xs S).take n = S.take a ++ xs := by
  subst hn
  rw [patch, List.take_append_of_le_length (by simp; omega)]
  apply List.take_of_length_le; simp

/-- The bytes from the patch's end stay. -/
theorem drop_patch {a n : Nat} {xs S : List α} (h : a + xs.length ≤ n) (ha : a ≤ S.length) :
    (patch a xs S).drop n = S.drop n := by
  have hl : (S.take a ++ xs).length = a + xs.length := by simp; omega
  rw [patch, List.drop_append, List.drop_eq_nil_of_le (by omega), hl, List.drop_drop]
  simp; congr 1; omega

/-- A patch as the three parts of the buffer. -/
theorem patch_eq (a : Nat) (xs S : List α) : patch a xs S = S.take a ++ xs ++ S.drop (a + xs.length) := rfl

@[simp] theorem length_zeros (n : Nat) : (zeros n).length = n := by simp [zeros]

end Sys2Proof.Machine
end

