-- ==== Sys2Proof/Laws/Engine.lean ====
section
/-! SUPPORT. What the engine's shared operations do: the shape of a word, an accumulator and a block (R17, R69), the
fold `F` (R49), and buffering with the block scheduler as one fold (R117 to R123). -/

namespace Sys2Proof.Machine

/-! ### Shapes -/

@[simp] theorem length_applyT (c : Config) (acc view : List Word) : (c.applyT acc view).length = c.nh := by
  simp [Config.applyT]

theorem applyT_lt {c : Config} {acc view : List Word} {w : Word} (h : w ∈ c.applyT acc view) : w < 2 ^ c.wb := by
  obtain ⟨i, -, rfl⟩ := List.mem_map.1 h
  exact Nat.mod_lt _ (by positivity)

@[simp] theorem length_freePend (c : Config) (d : Nat) : (c.freePend d).length = c.B := by simp [Config.freePend]

@[simp] theorem length_freeAcc (c : Config) (d : Nat) : (c.freeAcc d).length = c.nh := by simp [Config.freeAcc]

theorem freeAcc_lt {c : Config} {d : Nat} {w : Word} (h : w ∈ c.freeAcc d) : w < 2 ^ c.wb := by
  obtain ⟨i, -, rfl⟩ := List.mem_map.1 h
  exact Nat.mod_lt _ (by positivity)

theorem freeCntLo_lt (c : Config) (d : Nat) : c.freeCntLo d < 2 ^ c.wb := Nat.mod_lt _ (by positivity)

theorem freeCntHi_lt (c : Config) (d : Nat) : c.freeCntHi d < 2 ^ c.wb := Nat.mod_lt _ (by positivity)

@[simp] theorem length_serWord (c : Config) (v : Word) : (serWord c v).length = c.W := by
  unfold serWord; split <;> simp

@[simp] theorem length_wordView (c : Config) (blk : List Byte) : (wordView c blk).length = c.nw := by
  simp [wordView]

theorem counterAdd_lo_lt (c : Config) (lo hi n : Nat) : (counterAdd c lo hi n).1 < 2 ^ c.wb :=
  Nat.mod_lt _ (by positivity)

theorem counterAdd_hi_lt (c : Config) (lo hi n : Nat) : (counterAdd c lo hi n).2 < 2 ^ c.wb :=
  Nat.mod_lt _ (by positivity)

/-! ### What a configuration that has a machine satisfies -/

/-- The sizes of a configuration that has a machine (R10 to R15). -/
structure Sizes (c : Config) : Prop where
  W_pos : 1 ≤ c.W
  B_pow : c.B = 2 ^ c.B.log2
  W_dvd_B : c.W ∣ c.B
  two_W : 2 * c.W ≤ c.B
  B_le : c.B ≤ 2 ^ c.wb
  W_dvd_H : c.W ∣ c.H
  W_le_H : c.W ≤ c.H
  offset_le : c.offset ≤ 1

theorem wf_sizes {c : Config} (h : c.wf = true) : Sizes c := by
  simp only [Config.wf, Config.sizesWf, isPowerOfTwo, Bool.and_eq_true, decide_eq_true_eq, beq_iff_eq] at h
  obtain ⟨⟨⟨⟨⟨⟨⟨⟨⟨⟨⟨h1, h2⟩, h3⟩, h4⟩, h5⟩, h6⟩, h7⟩, h8⟩, -⟩, -⟩, -⟩, -⟩ := h
  exact ⟨h1, h2, Nat.dvd_of_mod_eq_zero h3, h4, h5, Nat.dvd_of_mod_eq_zero h6, h7, h8⟩

theorem Sizes.B_pos {c : Config} (h : Sizes c) : 0 < c.B := by have := h.W_pos; have := h.two_W; omega

/-- `B` divides `2^wb`, so the fill level survives a wrap of the low counter (R12, R32). -/
theorem Sizes.B_dvd {c : Config} (h : Sizes c) : c.B ∣ 2 ^ c.wb := by
  rw [h.B_pow]
  apply Nat.pow_dvd_pow
  have := h.B_le
  rw [h.B_pow] at this
  exact (Nat.pow_le_pow_iff_right (by omega)).1 this

theorem Sizes.nw_mul {c : Config} (h : Sizes c) : c.nw * c.W = c.B := Nat.div_mul_cancel h.W_dvd_B

theorem Sizes.nh_mul {c : Config} (h : Sizes c) : c.nh * c.W = c.H := Nat.div_mul_cancel h.W_dvd_H

theorem wf_iv {c : Config} (h : c.wf = true) : c.iv.length = c.nh ∧ ∀ w ∈ c.iv, w < 2 ^ c.wb := by
  simp only [Config.wf, Config.ivWf, Bool.and_eq_true, decide_eq_true_eq, List.all_eq_true] at h
  exact h.1.1.1.2

theorem wf_readable {c : Config} (h : c.wf = true) : c.readable.canonical = true := by
  simp only [Config.wf, Config.setWf, Bool.and_eq_true] at h
  exact h.1.2.1.1

theorem wf_writable {c : Config} (h : c.wf = true) : c.writable.canonical = true := by
  simp only [Config.wf, Config.setWf, Bool.and_eq_true] at h
  exact h.2.1.1

/-! ### The fold `F` -/

theorem blocksOf_short {c : Config} {S : List Byte} (h : S.length < c.B) : blocksOf c S = [] := by
  simp [blocksOf, Nat.div_eq_of_lt h]

theorem blocksOf_cons {c : Config} (hB : 0 < c.B) {X Y : List Byte} (hX : X.length = c.B) :
    blocksOf c (X ++ Y) = X :: blocksOf c Y := by
  have hl : (X ++ Y).length / c.B = Y.length / c.B + 1 := by
    rw [List.length_append, hX, Nat.add_comm, Nat.add_div_right _ hB]
  rw [blocksOf, hl, List.range_succ_eq_map, List.map_cons, List.map_map]
  congr 1
  · simp [← hX]
  · apply List.map_congr_left
    intro i _
    simp only [Function.comp, Nat.succ_eq_add_one]
    rw [slice_append_right (by rw [hX]; nlinarith), hX]
    congr 1
    · rw [Nat.add_mul, Nat.one_mul, Nat.add_sub_cancel]
    · rw [Nat.add_mul (i + 1), Nat.one_mul, Nat.add_sub_cancel]

/-- Whole blocks in front are the first blocks. -/
theorem blocksOf_append {c : Config} (hB : 0 < c.B) {X Y : List Byte} {k : Nat} (hX : X.length = k * c.B) :
    blocksOf c (X ++ Y) = blocksOf c X ++ blocksOf c Y := by
  induction k generalizing X with
  | zero =>
    have : X = [] := List.length_eq_zero_iff.1 (by simpa using hX)
    subst this
    rw [blocksOf_short (S := []) (by simpa using hB), List.nil_append, List.nil_append]
  | succ k ih =>
    have h1 : (X.take c.B).length = c.B := by rw [List.length_take, hX]; apply Nat.min_eq_left; nlinarith
    have h2 : (X.drop c.B).length = k * c.B := by rw [List.length_drop, hX, Nat.add_mul, Nat.one_mul]; omega
    rw [← List.take_append_drop c.B X, List.append_assoc, blocksOf_cons hB h1, ih h2, blocksOf_cons hB h1,
      List.cons_append]

/-- Bytes after the last whole block make no block. -/
theorem blocksOf_tail {c : Config} (hB : 0 < c.B) {X Y : List Byte} {k : Nat} (hX : X.length = k * c.B)
    (hY : Y.length < c.B) : blocksOf c (X ++ Y) = blocksOf c X := by
  rw [blocksOf_append hB hX, blocksOf_short hY, List.append_nil]

/-- Fewer than `B` bytes change nothing: no partial block folds into the accumulator (R34). -/
theorem compress_short {c : Config} {a : List Word} {S : List Byte} (h : S.length < c.B) : compress c a S = a := by
  simp [compress, blocksOf_short h]

/-- `F(a, X ++ Y) = F(T(a, words(X)), Y)` for a block `X` (R49). -/
theorem compress_cons {c : Config} (hB : 0 < c.B) {a : List Word} {X Y : List Byte} (hX : X.length = c.B) :
    compress c a (X ++ Y) = compress c (issue c a X) Y := by
  simp [compress, blocksOf_cons hB hX, issue]

/-- `F` over whole blocks and more. -/
theorem compress_append {c : Config} (hB : 0 < c.B) {a : List Word} {X Y : List Byte} {k : Nat}
    (hX : X.length = k * c.B) : compress c a (X ++ Y) = compress c (compress c a X) Y := by
  simp only [compress, blocksOf_append hB hX, List.foldl_append]

/-- Bytes after the last whole block change nothing. -/
theorem compress_tail {c : Config} (hB : 0 < c.B) {a : List Word} {X Y : List Byte} {k : Nat}
    (hX : X.length = k * c.B) (hY : Y.length < c.B) : compress c a (X ++ Y) = compress c a X := by
  rw [compress_append hB hX, compress_short hY]

theorem compress_shape {c : Config} {a : List Word} {S : List Byte} (hl : a.length = c.nh)
    (hw : ∀ w ∈ a, w < 2 ^ c.wb) :
    (compress c a S).length = c.nh ∧ ∀ w ∈ compress c a S, w < 2 ^ c.wb := by
  unfold compress
  induction blocksOf c S generalizing a with
  | nil => exact ⟨hl, hw⟩
  | cons X Xs ih => exact ih (length_applyT ..) fun w hw => applyT_lt hw

/-! ### Buffering and the block scheduler -/

/-- The block loop over all whole blocks of its input is `F`, and leaves the bytes after them (R119). -/
theorem issueBlocks_eq {c : Config} (hB : 0 < c.B) (n : Nat) (acc : List Word) (I : List Byte)
    (hI : I.length / c.B = n) : issueBlocks c n acc I = (compress c acc I, I.drop (n * c.B)) := by
  induction n generalizing acc I with
  | zero =>
    have : I.length < c.B := by
      rcases Nat.div_eq_zero_iff.1 hI with h | h <;> omega
    simp [issueBlocks, compress_short this]
  | succ n ih =>
    have hle : c.B ≤ I.length := by
      by_contra h
      rw [Nat.div_eq_of_lt (by omega)] at hI; omega
    have h1 : (I.take c.B).length = c.B := by simp [hle]
    have h2 : (I.drop c.B).length / c.B = n := by
      obtain ⟨m, hm⟩ := Nat.exists_eq_add_of_le hle
      rw [hm, Nat.add_comm, Nat.add_div_right _ hB] at hI
      rw [List.length_drop, hm, Nat.add_sub_cancel_left]; omega
    conv_rhs => rw [← List.take_append_drop c.B I, compress_cons hB h1, List.take_append_drop]
    rw [issueBlocks, ih _ _ h2, List.drop_drop]
    congr 2; ring

/-- The block scheduler: `F` over the whole blocks of the input, and the remainder at the start of `PEND` (R119,
R121). -/
theorem schedule_spec {c : Config} (hB : 0 < c.B) (acc : List Word) {pend : List Byte} (I : List Byte)
    (hp : pend.length = c.B) :
    (schedule c acc pend I).1 = compress c acc I ∧ (schedule c acc pend I).2.length = c.B ∧
      (schedule c acc pend I).2.take (I.length % c.B) = I.drop (I.length / c.B * c.B) := by
  have hl : (I.drop (I.length / c.B * c.B)).length = I.length % c.B := by
    have := Nat.div_add_mod' I.length c.B
    rw [List.length_drop]; omega
  have hlt := Nat.mod_lt I.length hB
  simp only [schedule, issueBlocks_eq hB _ _ _ rfl]
  refine ⟨trivial, ?_, ?_⟩
  · rw [length_patch (by omega), hp]
  · rw [take_patch_end (by omega) (by omega)]; simp

theorem drop_whole_block {n m : Nat} {X Y : List Byte} (hX : X.length = n) :
    (X ++ Y).drop ((m + 1) * n) = Y.drop (m * n) := by
  rw [Nat.add_mul, Nat.one_mul, Nat.add_comm, ← hX, List.drop_append]
  simp

/-- Buffering and the block scheduler are one fold: with the `num` pending bytes before the input, every whole block is
issued in stream order, once, and the bytes after them are what `PEND` begins with (R117 to R123). -/
theorem absorb_spec {c : Config} (hB : 0 < c.B) {num : Nat} (acc : List Word) {pend : List Byte} (I : List Byte)
    (hn : num < c.B) (hp : pend.length = c.B) :
    (absorb c num acc pend I).1 = compress c acc (pend.take num ++ I) ∧
      (absorb c num acc pend I).2.length = c.B ∧
      (absorb c num acc pend I).2.take ((num + I.length) % c.B) =
        (pend.take num ++ I).drop ((num + I.length) / c.B * c.B) := by
  have hpl : (pend.take num).length = num := by simp; omega
  unfold absorb
  split
  · next h => subst h; simpa using schedule_spec hB acc I hp
  · split
    · next h0 h =>
      have hs : (I.take (c.B - num)).length = c.B - num := by simp; omega
      have hfull : patch num (I.take (c.B - num)) pend = pend.take num ++ I.take (c.B - num) := by
        rw [patch, hs, List.drop_eq_nil_of_le (by omega), List.append_nil]
      have hfl : (pend.take num ++ I.take (c.B - num)).length = c.B := by
        rw [List.length_append, hpl, hs]; omega
      have hsplit : pend.take num ++ I = (pend.take num ++ I.take (c.B - num)) ++ I.drop (c.B - num) := by
        rw [List.append_assoc, List.take_append_drop]
      simp only [slice_zero, hfull]
      rw [List.take_of_length_le (le_of_eq hfl), hsplit, compress_cons hB hfl]
      have hsch := schedule_spec hB (issue c acc (pend.take num ++ I.take (c.B - num))) (I.drop (c.B - num)) hfl
      have hlen : num + I.length = (I.drop (c.B - num)).length + c.B := by simp; omega
      refine ⟨hsch.1, hsch.2.1, ?_⟩
      rw [hlen, Nat.add_mod_right, Nat.add_div_right _ hB, hsch.2.2, drop_whole_block hfl]
    · next h0 h =>
      have hlt : num + I.length < c.B := by omega
      refine ⟨(compress_short (by simp; omega)).symm, length_patch (by omega) |>.trans hp, ?_⟩
      rw [Nat.mod_eq_of_lt hlt, Nat.div_eq_of_lt hlt, take_patch_end (by omega) rfl]
      simp

end Sys2Proof.Machine
end

