-- ==== Sys2Proof/Laws/Padding.lean ====
section
/-! SUPPORT. What the padding generator, the length field and the final issues of FINALIZE do (R143 to R148). -/

namespace Sys2Proof.Machine

theorem Sizes.lenField_add {c : Config} (h : Sizes c) : c.lenField + 2 * c.W = c.B := by
  have := h.two_W; simp only [Config.lenField]; omega

theorem Sizes.nw_ge {c : Config} (h : Sizes c) : 2 ≤ c.nw := by
  have h1 := h.nw_mul; have h2 := h.two_W; have h3 := h.W_pos
  by_contra hc
  have : c.nw * c.W ≤ 1 * c.W := Nat.mul_le_mul_right _ (by omega)
  omega

/-- The two length-field slots as byte offsets: `L` and `L + W`, by `OFFSET` (R146). -/
theorem Sizes.slots {c : Config} (h : Sizes c) :
    (c.offset = 0 → c.loSlot * c.W = c.lenField ∧ c.hiSlot * c.W = c.lenField + c.W) ∧
      (c.offset = 1 → c.hiSlot * c.W = c.lenField ∧ c.loSlot * c.W = c.lenField + c.W) := by
  have h1 := h.nw_mul
  have h2 := h.lenField_add
  have key : (c.nw - 2) * c.W = c.lenField ∧ (c.nw - 1) * c.W = c.lenField + c.W := by
    obtain ⟨k, hk⟩ := Nat.exists_eq_add_of_le h.nw_ge
    rw [hk] at h1 ⊢
    rw [show 2 + k - 2 = k by omega, show 2 + k - 1 = k + 1 by omega]
    constructor <;> nlinarith
  have := h.nw_ge
  constructor <;> intro ho
  · simpa [Config.loSlot, Config.hiSlot, ho] using key
  · rw [Config.loSlot, Config.hiSlot, ho, show c.nw - 1 - 1 = c.nw - 2 by omega,
      show c.nw - 2 + 1 = c.nw - 1 by omega]
    exact key

/-- The bytes of the length field for the bit count `bc = (BC_LO, BC_HI)` (R146, R147). -/
def lengthBytes (c : Config) (bc : Word × Word) : List Byte :=
  if c.offset = 0 then serWord c bc.1 ++ serWord c bc.2 else serWord c bc.2 ++ serWord c bc.1

@[simp] theorem length_lengthBytes (c : Config) (bc : Word × Word) : (lengthBytes c bc).length = 2 * c.W := by
  unfold lengthBytes; split <;> simp <;> omega

/-- Two patches side by side at the end of a buffer. -/
theorem patch_patch_end {S xs ys : List Byte} {a : Nat} (h : a + (xs.length + ys.length) = S.length) :
    patch (a + xs.length) ys (patch a xs S) = S.take a ++ (xs ++ ys) ∧
      patch a xs (patch (a + xs.length) ys S) = S.take a ++ (xs ++ ys) := by
  constructor
  · rw [patch_eq (a + xs.length), take_patch_end (by omega) rfl, List.drop_eq_nil_of_le]
    · simp
    · rw [length_patch (by omega)]; omega
  · have hd : (patch (a + xs.length) ys S).drop (a + xs.length) = ys := by
      have hl : (S.take (a + xs.length)).length = a + xs.length := by simp; omega
      rw [patch_eq, List.drop_eq_nil_of_le (show S.length ≤ a + xs.length + ys.length by omega), List.append_nil,
        List.drop_append, hl, List.drop_eq_nil_of_le (by omega)]
      simp
    rw [patch_eq a, take_patch (by omega) (by omega), hd, List.append_assoc]

/-- The length field takes the last `2*W` bytes of the block and leaves the bytes before it (R146). -/
theorem putLength_eq {c : Config} (h : Sizes c) (bc : Word × Word) {pend : List Byte} (hp : pend.length = c.B) :
    putLength c bc pend = pend.take c.lenField ++ lengthBytes c bc := by
  have hL := h.lenField_add
  obtain ⟨h0, h1⟩ := h.slots
  unfold putLength lengthBytes
  rcases Nat.le_one_iff_eq_zero_or_eq_one.1 h.offset_le with ho | ho
  · obtain ⟨e1, e2⟩ := h0 ho
    rw [if_pos ho, e1, e2]
    simpa using (patch_patch_end (S := pend) (xs := serWord c bc.1) (ys := serWord c bc.2) (a := c.lenField)
      (by simp; omega)).1
  · obtain ⟨e1, e2⟩ := h1 ho
    rw [if_neg (by omega), e1, e2]
    simpa using (patch_patch_end (S := pend) (xs := serWord c bc.2) (ys := serWord c bc.1) (a := c.lenField)
      (by simp; omega)).2

/-- The pad byte and a zero fill of `k` bytes after the `n` valid bytes. -/
theorem take_mark_fill {n k m : Nat} {pend : List Byte} (hm : m = n + 1 + k) (hp : m ≤ pend.length) :
    (patch (n + 1) (zeros k) (patch n [0x80] pend)).take m = pend.take n ++ [0x80] ++ zeros k := by
  have h1 : (patch n [0x80] pend).length = pend.length := length_patch (by simp; omega)
  rw [take_patch_end (by omega) (by simpa using hm), take_patch_end (by omega) (by simp)]

theorem length_mark_fill {n k : Nat} {pend : List Byte} (hp : n + 1 + k ≤ pend.length) :
    (patch (n + 1) (zeros k) (patch n [0x80] pend)).length = pend.length := by
  have h1 : (patch n [0x80] pend).length = pend.length := length_patch (by simp; omega)
  rw [length_patch (by simp only [length_zeros]; omega), h1]

/-- One final block: the pad byte and the length field fit (R144). -/
theorem pad_one {c : Config} (h : Sizes c) {n : Nat} (acc : List Word) {pend : List Byte} (hp : pend.length = c.B)
    (hn : n + 1 ≤ c.lenField) :
    (pad c n acc pend).1 = acc ∧ (pad c n acc pend).2.length = c.B ∧
      (pad c n acc pend).2.take c.lenField = pend.take n ++ [0x80] ++ zeros (c.lenField - (n + 1)) := by
  have hL := h.lenField_add
  unfold pad
  rw [if_pos hn]
  exact ⟨rfl, (length_mark_fill (by omega)).trans hp, take_mark_fill (by omega) (by omega)⟩

/-- Two final blocks: the first one is issued, the second begins with `L` zero bytes (R145). -/
theorem pad_two {c : Config} (h : Sizes c) {n : Nat} (acc : List Word) {pend : List Byte} (hp : pend.length = c.B)
    (hn : ¬n + 1 ≤ c.lenField) (hlt : n < c.B) :
    (pad c n acc pend).1 = issue c acc (pend.take n ++ [0x80] ++ zeros (c.B - (n + 1))) ∧
      (pad c n acc pend).2.length = c.B ∧ (pad c n acc pend).2.take c.lenField = zeros c.lenField := by
  have hL := h.lenField_add
  have hfull := length_mark_fill (pend := pend) (n := n) (k := c.B - (n + 1)) (by omega)
  unfold pad
  rw [if_neg hn]
  refine ⟨?_, ?_, ?_⟩
  · simp only [slice_zero]
    rw [take_mark_fill (by omega) (by omega)]
  · rw [length_patch (by simp only [length_zeros]; omega)]; omega
  · rw [take_patch_end (by omega) (by simp)]; simp

/-- Steps 1 to 4 of FINALIZE are `F` over the pending bytes, the pad byte, the zero fill and the length field (R143 to
R148). -/
theorem finalAcc_eq {s : State} (h : Sizes s.cfg) (hp : s.pend.length = s.cfg.B) :
    s.finalAcc = compress s.cfg s.acc (s.pend.take s.valid ++ [0x80]
      ++ zeros (if s.valid + 1 ≤ s.cfg.lenField then s.cfg.lenField - (s.valid + 1)
          else s.cfg.B - (s.valid + 1) + s.cfg.lenField)
      ++ lengthBytes s.cfg (bitCount s.cfg s.cntLo s.cntHi)) := by
  have hL := h.lenField_add
  have hB := h.B_pos
  have hv : s.valid < s.cfg.B := Nat.mod_lt _ hB
  have hone : ∀ (a : List Word) {X : List Byte}, X.length = s.cfg.B → compress s.cfg a X = issue s.cfg a X := by
    intro a X hX
    have := compress_cons (a := a) hB hX (Y := [])
    rwa [List.append_nil, compress_short (S := []) (by simpa using hB)] at this
  unfold State.finalAcc
  simp only [slice_zero]
  split
  · next hn =>
    obtain ⟨h1, h2, h3⟩ := pad_one h s.acc hp hn
    rw [putLength_eq h _ h2, h1, h3]
    have hX : (s.pend.take s.valid ++ [0x80] ++ zeros (s.cfg.lenField - (s.valid + 1))
        ++ lengthBytes s.cfg (bitCount s.cfg s.cntLo s.cntHi)).length = s.cfg.B := by
      simp; omega
    rw [hone _ hX, List.take_of_length_le (le_of_eq hX)]
  · next hn =>
    obtain ⟨h1, h2, h3⟩ := pad_two h s.acc hp hn hv
    rw [putLength_eq h _ h2, h1, h3]
    have hX : (s.pend.take s.valid ++ [0x80] ++ zeros (s.cfg.B - (s.valid + 1))).length = s.cfg.B := by
      simp; omega
    have hY : (zeros s.cfg.lenField ++ lengthBytes s.cfg (bitCount s.cfg s.cntLo s.cntHi)).length = s.cfg.B := by
      simp; omega
    rw [List.take_of_length_le (le_of_eq hY), ← hone _ hY, ← compress_cons hB hX]
    simp [zeros, ← List.replicate_append_replicate]

end Sys2Proof.Machine
end

