-- ==== Sys2Proof/Laws/Memory.lean ====
section
/-! SUPPORT. Host memory: every operation keeps the canonical form, and reading after writing (R60, R67). -/

namespace Sys2Proof.Machine

/-- Every listed address is above `a`. -/
def Memory.Above (a : Nat) (m : Memory) : Prop := ∀ e ∈ m, a < e.1

theorem Memory.wf_cons {e : Host.Cell} {m : Memory} :
    Memory.wf (e :: m) = true ↔ e.2 ≠ Memory.unlisted ∧ Memory.Above e.1 m ∧ Memory.wf m = true := by
  induction m generalizing e with
  | nil => simp [Memory.wf, Memory.Above]
  | cons e' m ih =>
    simp only [Memory.wf, Bool.and_eq_true, decide_eq_true_eq, Memory.Above, List.mem_cons, forall_eq_or_imp]
    constructor
    · rintro ⟨⟨h1, h2⟩, h3⟩
      exact ⟨h1, ⟨h2, fun x hx => h2.trans ((ih.1 h3).2.1 x hx)⟩, h3⟩
    · rintro ⟨h1, ⟨h2, -⟩, h3⟩
      exact ⟨⟨h1, h2⟩, h3⟩

theorem Memory.read_above {a : Nat} {m : Memory} (h : Memory.Above a m) : m.read a = Memory.unlisted := by
  induction m with
  | nil => rfl
  | cons e m ih =>
    have he : a < e.1 := h e (by simp)
    rw [Memory.read, if_neg (by omega)]
    exact ih fun x hx => h x (by simp [hx])

theorem Memory.mem_cons_op {a : Nat} {b : Byte} {m : Memory} {e : Host.Cell} (h : e ∈ Memory.cons a b m) :
    e = (a, b) ∨ e ∈ m := by
  unfold Memory.cons at h; split at h <;> simp_all

theorem Memory.cons_wf {a : Nat} {b : Byte} {m : Memory} (ha : Memory.Above a m) (hm : m.wf = true) :
    (Memory.cons a b m).wf = true := by
  unfold Memory.cons
  split
  · exact hm
  · exact Memory.wf_cons.2 ⟨‹_›, ha, hm⟩

theorem Memory.read_cons_same {a : Nat} {b : Byte} {m : Memory} (ha : Memory.Above a m) :
    (Memory.cons a b m).read a = b := by
  unfold Memory.cons
  split
  · next h => rw [Memory.read_above ha, h]
  · simp [Memory.read]

theorem Memory.read_cons_other {a x : Nat} {b : Byte} {m : Memory} (h : x ≠ a) :
    (Memory.cons a b m).read x = m.read x := by
  unfold Memory.cons
  split
  · rfl
  · rw [Memory.read, if_neg (by simpa using h.symm)]

/-- A write lists no address but its own and those listed before. -/
theorem Memory.mem_write {m : Memory} {a : Nat} {b : Byte} {e : Host.Cell} (h : e ∈ m.write a b) :
    e.1 = a ∨ e ∈ m := by
  induction m with
  | nil => rcases Memory.mem_cons_op h with rfl | h <;> simp_all
  | cons x m ih =>
    unfold Memory.write at h
    split at h
    · rcases Memory.mem_cons_op h with rfl | h <;> simp_all
    · split at h
      · rcases Memory.mem_cons_op h with rfl | h <;> simp_all
      · rcases List.mem_cons.1 h with rfl | h
        · simp
        · rcases ih h with h | h <;> simp [h]

/-- A write keeps the canonical form. -/
theorem Memory.write_wf {m : Memory} (a : Nat) (b : Byte) (h : m.wf = true) : (m.write a b).wf = true := by
  induction m with
  | nil => exact Memory.cons_wf (by simp [Memory.Above]) h
  | cons e m ih =>
    obtain ⟨h1, h2, h3⟩ := Memory.wf_cons.1 h
    unfold Memory.write
    split
    · next ha =>
      refine Memory.cons_wf (fun x hx => ?_) h
      rcases List.mem_cons.1 hx with rfl | hx
      · exact ha
      · exact ha.trans (h2 x hx)
    · split
      · next ha => exact Memory.cons_wf (ha ▸ h2) h3
      · refine Memory.wf_cons.2 ⟨h1, fun x hx => ?_, ih h3⟩
        rcases Memory.mem_write hx with hx | hx
        · omega
        · exact h2 x hx

/-- A byte reads as it was last written (R67). -/
theorem Memory.read_write_same {m : Memory} (a : Nat) (b : Byte) (h : m.wf = true) : (m.write a b).read a = b := by
  induction m with
  | nil => exact Memory.read_cons_same (by simp [Memory.Above])
  | cons e m ih =>
    obtain ⟨-, h2, h3⟩ := Memory.wf_cons.1 h
    unfold Memory.write
    split
    · next ha =>
      refine Memory.read_cons_same fun x hx => ?_
      rcases List.mem_cons.1 hx with rfl | hx
      · exact ha
      · exact ha.trans (h2 x hx)
    · split
      · next ha => exact Memory.read_cons_same (ha ▸ h2)
      · rw [Memory.read, if_neg (by omega)]
        exact ih h3

/-- A write leaves every other byte alone (R67). -/
theorem Memory.read_write_other {m : Memory} {a x : Nat} (b : Byte) (h : x ≠ a) :
    (m.write a b).read x = m.read x := by
  induction m with
  | nil => exact Memory.read_cons_other h
  | cons e m ih =>
    unfold Memory.write
    split
    · exact Memory.read_cons_other h
    · split
      · next ha => rw [Memory.read_cons_other h, Memory.read, if_neg (by omega)]
      · simp only [Memory.read, ih]

@[simp] theorem Memory.length_readSpan (m : Memory) (a n : Nat) : (m.readSpan a n).length = n := by
  induction n generalizing a with
  | zero => rfl
  | succ n ih => simp [Memory.readSpan, ih]

/-- Byte `k` of a span is the byte at its address (R64). -/
theorem Memory.readSpan_getElem (m : Memory) (a n k : Nat) (h : k < (m.readSpan a n).length) :
    (m.readSpan a n)[k] = m.read (a + k) := by
  induction n generalizing a k with
  | zero => simp at h
  | succ n ih =>
    cases k with
    | zero => rfl
    | succ k => simp only [Memory.readSpan, List.getElem_cons_succ]; rw [ih]; congr 1; omega

/-- Spans one after the other. -/
theorem Memory.readSpan_add (m : Memory) (a n k : Nat) :
    m.readSpan a (n + k) = m.readSpan a n ++ m.readSpan (a + n) k := by
  apply List.ext_getElem
  · simp
  · intro i h1 h2
    rw [Memory.readSpan_getElem, List.getElem_append]
    split
    · rw [Memory.readSpan_getElem]
    · rw [Memory.readSpan_getElem]
      simp only [Memory.length_readSpan] at *
      congr 1; omega

theorem Memory.writeBytes_wf {m : Memory} (a : Nat) (bs : List Byte) (h : m.wf = true) :
    (m.writeBytes a bs).wf = true := by
  induction bs generalizing m a with
  | nil => exact h
  | cons b bs ih => exact ih (a + 1) (Memory.write_wf a b h)

theorem Memory.mem_writeBytes {m : Memory} {a : Nat} {bs : List Byte} {e : Host.Cell} (h : e ∈ m.writeBytes a bs) :
    (a ≤ e.1 ∧ e.1 < a + bs.length) ∨ e ∈ m := by
  induction bs generalizing m a with
  | nil => exact .inr h
  | cons b bs ih =>
    rcases ih h with ⟨h1, h2⟩ | h
    · left; simp; omega
    · rcases Memory.mem_write h with h | h
      · left; simp; omega
      · exact .inr h

/-- Bytes outside the written span stay (R66, R149). -/
theorem Memory.read_writeBytes_outside {m : Memory} {a x : Nat} {bs : List Byte} (h : x < a ∨ a + bs.length ≤ x) :
    (m.writeBytes a bs).read x = m.read x := by
  induction bs generalizing m a with
  | nil => rfl
  | cons b bs ih =>
    simp only [List.length_cons] at h
    rw [Memory.writeBytes, ih (by omega), Memory.read_write_other b (by omega)]

/-- Byte `k` of the written span is byte `k` of the list. -/
theorem Memory.read_writeBytes {m : Memory} {a k : Nat} {bs : List Byte} (hm : m.wf = true) (h : k < bs.length) :
    (m.writeBytes a bs).read (a + k) = bs[k] := by
  induction bs generalizing m a k with
  | nil => simp at h
  | cons b bs ih =>
    cases k with
    | zero => rw [Memory.writeBytes, Memory.read_writeBytes_outside (by omega)]; exact Memory.read_write_same _ _ hm
    | succ k =>
      have := ih (m := m.write a b) (a := a + 1) (k := k) (Memory.write_wf a b hm) (by simpa using h)
      simpa [Memory.writeBytes, Nat.add_assoc, Nat.add_comm 1 k] using this

/-- The memory of the reset state is in the canonical form. -/
theorem State.reset_mem_wf : State.reset.mem.wf = true := rfl

end Sys2Proof.Machine
end

