-- ==== Sys2Proof/Laws/State.lean ====
section
/-! SUPPORT. One lemma for each field of each named update of the state. -/

namespace Sys2Proof.Machine

variable (s : State)

/-! ### `State.raiseFault` -/

@[simp] theorem State.raiseFault_cfg (k : Cause) : (s.raiseFault k).cfg = s.cfg := rfl
@[simp] theorem State.raiseFault_pend (k : Cause) : (s.raiseFault k).pend = s.pend := rfl
@[simp] theorem State.raiseFault_acc (k : Cause) : (s.raiseFault k).acc = s.acc := rfl
@[simp] theorem State.raiseFault_cntLo (k : Cause) : (s.raiseFault k).cntLo = s.cntLo := rfl
@[simp] theorem State.raiseFault_cntHi (k : Cause) : (s.raiseFault k).cntHi = s.cntHi := rfl
@[simp] theorem State.raiseFault_lifecycle (k : Cause) : (s.raiseFault k).lifecycle = s.lifecycle := rfl
@[simp] theorem State.raiseFault_fault (k : Cause) : (s.raiseFault k).fault = true := rfl
@[simp] theorem State.raiseFault_cause (k : Cause) : (s.raiseFault k).cause = k := rfl
@[simp] theorem State.raiseFault_src (k : Cause) : (s.raiseFault k).src = s.src := rfl
@[simp] theorem State.raiseFault_len (k : Cause) : (s.raiseFault k).len = s.len := rfl
@[simp] theorem State.raiseFault_dst (k : Cause) : (s.raiseFault k).dst = s.dst := rfl
@[simp] theorem State.raiseFault_mem (k : Cause) : (s.raiseFault k).mem = s.mem := rfl
@[simp] theorem State.raiseFault_rdata (k : Cause) : (s.raiseFault k).rdata = s.rdata := rfl
@[simp] theorem State.raiseFault_script (k : Cause) : (s.raiseFault k).script = s.script := rfl
@[simp] theorem State.raiseFault_draws (k : Cause) : (s.raiseFault k).draws = s.draws := rfl

/-! ### `State.forget` -/

@[simp] theorem State.forget_cfg : (s.forget).cfg = s.cfg := rfl
@[simp] theorem State.forget_pend : (s.forget).pend = s.cfg.freePend s.draws := rfl
@[simp] theorem State.forget_acc : (s.forget).acc = s.cfg.freeAcc s.draws := rfl
@[simp] theorem State.forget_cntLo : (s.forget).cntLo = s.cfg.freeCntLo s.draws := rfl
@[simp] theorem State.forget_cntHi : (s.forget).cntHi = s.cfg.freeCntHi s.draws := rfl
@[simp] theorem State.forget_lifecycle : (s.forget).lifecycle = s.lifecycle := rfl
@[simp] theorem State.forget_fault : (s.forget).fault = s.fault := rfl
@[simp] theorem State.forget_cause : (s.forget).cause = s.cause := rfl
@[simp] theorem State.forget_src : (s.forget).src = s.src := rfl
@[simp] theorem State.forget_len : (s.forget).len = s.len := rfl
@[simp] theorem State.forget_dst : (s.forget).dst = s.dst := rfl
@[simp] theorem State.forget_mem : (s.forget).mem = s.mem := rfl
@[simp] theorem State.forget_rdata : (s.forget).rdata = s.rdata := rfl
@[simp] theorem State.forget_script : (s.forget).script = s.script := rfl
@[simp] theorem State.forget_draws : (s.forget).draws = s.draws + 1 := rfl

/-! ### `State.assertReset` -/

@[simp] theorem State.assertReset_cfg : (s.assertReset).cfg = s.cfg := rfl
@[simp] theorem State.assertReset_pend : (s.assertReset).pend = s.cfg.freePend s.draws := rfl
@[simp] theorem State.assertReset_acc : (s.assertReset).acc = s.cfg.freeAcc s.draws := rfl
@[simp] theorem State.assertReset_cntLo : (s.assertReset).cntLo = s.cfg.freeCntLo s.draws := rfl
@[simp] theorem State.assertReset_cntHi : (s.assertReset).cntHi = s.cfg.freeCntHi s.draws := rfl
@[simp] theorem State.assertReset_lifecycle : (s.assertReset).lifecycle = .uninit := rfl
@[simp] theorem State.assertReset_fault : (s.assertReset).fault = false := rfl
@[simp] theorem State.assertReset_cause : (s.assertReset).cause = .none := rfl
@[simp] theorem State.assertReset_src : (s.assertReset).src = 0 := rfl
@[simp] theorem State.assertReset_len : (s.assertReset).len = 0 := rfl
@[simp] theorem State.assertReset_dst : (s.assertReset).dst = 0 := rfl
@[simp] theorem State.assertReset_mem : (s.assertReset).mem = s.mem := rfl
@[simp] theorem State.assertReset_rdata : (s.assertReset).rdata = s.rdata := rfl
@[simp] theorem State.assertReset_script : (s.assertReset).script = s.script := rfl
@[simp] theorem State.assertReset_draws : (s.assertReset).draws = s.draws + 1 := rfl

/-! ### `State.forgetTail` -/

@[simp] theorem State.forgetTail_cfg : (s.forgetTail).cfg = s.cfg := rfl
@[simp] theorem State.forgetTail_pend :
    (s.forgetTail).pend = s.pend.take s.valid ++ (s.cfg.freePend s.draws).drop s.valid := rfl
@[simp] theorem State.forgetTail_acc : (s.forgetTail).acc = s.acc := rfl
@[simp] theorem State.forgetTail_cntLo : (s.forgetTail).cntLo = s.cntLo := rfl
@[simp] theorem State.forgetTail_cntHi : (s.forgetTail).cntHi = s.cntHi := rfl
@[simp] theorem State.forgetTail_lifecycle : (s.forgetTail).lifecycle = s.lifecycle := rfl
@[simp] theorem State.forgetTail_fault : (s.forgetTail).fault = s.fault := rfl
@[simp] theorem State.forgetTail_cause : (s.forgetTail).cause = s.cause := rfl
@[simp] theorem State.forgetTail_src : (s.forgetTail).src = s.src := rfl
@[simp] theorem State.forgetTail_len : (s.forgetTail).len = s.len := rfl
@[simp] theorem State.forgetTail_dst : (s.forgetTail).dst = s.dst := rfl
@[simp] theorem State.forgetTail_mem : (s.forgetTail).mem = s.mem := rfl
@[simp] theorem State.forgetTail_rdata : (s.forgetTail).rdata = s.rdata := rfl
@[simp] theorem State.forgetTail_script : (s.forgetTail).script = s.script := rfl
@[simp] theorem State.forgetTail_draws : (s.forgetTail).draws = s.draws + 1 := rfl

/-! ### `State.writeSrc` -/

@[simp] theorem State.writeSrc_cfg (v : BitVec 64) : (s.writeSrc v).cfg = s.cfg := rfl
@[simp] theorem State.writeSrc_pend (v : BitVec 64) : (s.writeSrc v).pend = s.pend := rfl
@[simp] theorem State.writeSrc_acc (v : BitVec 64) : (s.writeSrc v).acc = s.acc := rfl
@[simp] theorem State.writeSrc_cntLo (v : BitVec 64) : (s.writeSrc v).cntLo = s.cntLo := rfl
@[simp] theorem State.writeSrc_cntHi (v : BitVec 64) : (s.writeSrc v).cntHi = s.cntHi := rfl
@[simp] theorem State.writeSrc_lifecycle (v : BitVec 64) : (s.writeSrc v).lifecycle = s.lifecycle := rfl
@[simp] theorem State.writeSrc_fault (v : BitVec 64) : (s.writeSrc v).fault = s.fault := rfl
@[simp] theorem State.writeSrc_cause (v : BitVec 64) : (s.writeSrc v).cause = s.cause := rfl
@[simp] theorem State.writeSrc_src (v : BitVec 64) : (s.writeSrc v).src = lowBits s.cfg.AW v := rfl
@[simp] theorem State.writeSrc_len (v : BitVec 64) : (s.writeSrc v).len = s.len := rfl
@[simp] theorem State.writeSrc_dst (v : BitVec 64) : (s.writeSrc v).dst = s.dst := rfl
@[simp] theorem State.writeSrc_mem (v : BitVec 64) : (s.writeSrc v).mem = s.mem := rfl
@[simp] theorem State.writeSrc_rdata (v : BitVec 64) : (s.writeSrc v).rdata = s.rdata := rfl
@[simp] theorem State.writeSrc_script (v : BitVec 64) : (s.writeSrc v).script = s.script := rfl
@[simp] theorem State.writeSrc_draws (v : BitVec 64) : (s.writeSrc v).draws = s.draws := rfl

/-! ### `State.writeLen` -/

@[simp] theorem State.writeLen_cfg (v : BitVec 64) : (s.writeLen v).cfg = s.cfg := rfl
@[simp] theorem State.writeLen_pend (v : BitVec 64) : (s.writeLen v).pend = s.pend := rfl
@[simp] theorem State.writeLen_acc (v : BitVec 64) : (s.writeLen v).acc = s.acc := rfl
@[simp] theorem State.writeLen_cntLo (v : BitVec 64) : (s.writeLen v).cntLo = s.cntLo := rfl
@[simp] theorem State.writeLen_cntHi (v : BitVec 64) : (s.writeLen v).cntHi = s.cntHi := rfl
@[simp] theorem State.writeLen_lifecycle (v : BitVec 64) : (s.writeLen v).lifecycle = s.lifecycle := rfl
@[simp] theorem State.writeLen_fault (v : BitVec 64) : (s.writeLen v).fault = s.fault := rfl
@[simp] theorem State.writeLen_cause (v : BitVec 64) : (s.writeLen v).cause = s.cause := rfl
@[simp] theorem State.writeLen_src (v : BitVec 64) : (s.writeLen v).src = s.src := rfl
@[simp] theorem State.writeLen_len (v : BitVec 64) : (s.writeLen v).len = lowBits s.cfg.LW v := rfl
@[simp] theorem State.writeLen_dst (v : BitVec 64) : (s.writeLen v).dst = s.dst := rfl
@[simp] theorem State.writeLen_mem (v : BitVec 64) : (s.writeLen v).mem = s.mem := rfl
@[simp] theorem State.writeLen_rdata (v : BitVec 64) : (s.writeLen v).rdata = s.rdata := rfl
@[simp] theorem State.writeLen_script (v : BitVec 64) : (s.writeLen v).script = s.script := rfl
@[simp] theorem State.writeLen_draws (v : BitVec 64) : (s.writeLen v).draws = s.draws := rfl

/-! ### `State.writeDst` -/

@[simp] theorem State.writeDst_cfg (v : BitVec 64) : (s.writeDst v).cfg = s.cfg := rfl
@[simp] theorem State.writeDst_pend (v : BitVec 64) : (s.writeDst v).pend = s.pend := rfl
@[simp] theorem State.writeDst_acc (v : BitVec 64) : (s.writeDst v).acc = s.acc := rfl
@[simp] theorem State.writeDst_cntLo (v : BitVec 64) : (s.writeDst v).cntLo = s.cntLo := rfl
@[simp] theorem State.writeDst_cntHi (v : BitVec 64) : (s.writeDst v).cntHi = s.cntHi := rfl
@[simp] theorem State.writeDst_lifecycle (v : BitVec 64) : (s.writeDst v).lifecycle = s.lifecycle := rfl
@[simp] theorem State.writeDst_fault (v : BitVec 64) : (s.writeDst v).fault = s.fault := rfl
@[simp] theorem State.writeDst_cause (v : BitVec 64) : (s.writeDst v).cause = s.cause := rfl
@[simp] theorem State.writeDst_src (v : BitVec 64) : (s.writeDst v).src = s.src := rfl
@[simp] theorem State.writeDst_len (v : BitVec 64) : (s.writeDst v).len = s.len := rfl
@[simp] theorem State.writeDst_dst (v : BitVec 64) : (s.writeDst v).dst = lowBits s.cfg.AW v := rfl
@[simp] theorem State.writeDst_mem (v : BitVec 64) : (s.writeDst v).mem = s.mem := rfl
@[simp] theorem State.writeDst_rdata (v : BitVec 64) : (s.writeDst v).rdata = s.rdata := rfl
@[simp] theorem State.writeDst_script (v : BitVec 64) : (s.writeDst v).script = s.script := rfl
@[simp] theorem State.writeDst_draws (v : BitVec 64) : (s.writeDst v).draws = s.draws := rfl

/-! ### `State.returnData` -/

@[simp] theorem State.returnData_cfg (v : BitVec 64) : (s.returnData v).cfg = s.cfg := rfl
@[simp] theorem State.returnData_pend (v : BitVec 64) : (s.returnData v).pend = s.pend := rfl
@[simp] theorem State.returnData_acc (v : BitVec 64) : (s.returnData v).acc = s.acc := rfl
@[simp] theorem State.returnData_cntLo (v : BitVec 64) : (s.returnData v).cntLo = s.cntLo := rfl
@[simp] theorem State.returnData_cntHi (v : BitVec 64) : (s.returnData v).cntHi = s.cntHi := rfl
@[simp] theorem State.returnData_lifecycle (v : BitVec 64) : (s.returnData v).lifecycle = s.lifecycle := rfl
@[simp] theorem State.returnData_fault (v : BitVec 64) : (s.returnData v).fault = s.fault := rfl
@[simp] theorem State.returnData_cause (v : BitVec 64) : (s.returnData v).cause = s.cause := rfl
@[simp] theorem State.returnData_src (v : BitVec 64) : (s.returnData v).src = s.src := rfl
@[simp] theorem State.returnData_len (v : BitVec 64) : (s.returnData v).len = s.len := rfl
@[simp] theorem State.returnData_dst (v : BitVec 64) : (s.returnData v).dst = s.dst := rfl
@[simp] theorem State.returnData_mem (v : BitVec 64) : (s.returnData v).mem = s.mem := rfl
@[simp] theorem State.returnData_rdata (v : BitVec 64) : (s.returnData v).rdata = v := rfl
@[simp] theorem State.returnData_script (v : BitVec 64) : (s.returnData v).script = s.script := rfl
@[simp] theorem State.returnData_draws (v : BitVec 64) : (s.returnData v).draws = s.draws := rfl

/-! ### `State.storeByte` -/

@[simp] theorem State.storeByte_cfg (a : Nat) (b : Byte) : (s.storeByte a b).cfg = s.cfg := rfl
@[simp] theorem State.storeByte_pend (a : Nat) (b : Byte) : (s.storeByte a b).pend = s.pend := rfl
@[simp] theorem State.storeByte_acc (a : Nat) (b : Byte) : (s.storeByte a b).acc = s.acc := rfl
@[simp] theorem State.storeByte_cntLo (a : Nat) (b : Byte) : (s.storeByte a b).cntLo = s.cntLo := rfl
@[simp] theorem State.storeByte_cntHi (a : Nat) (b : Byte) : (s.storeByte a b).cntHi = s.cntHi := rfl
@[simp] theorem State.storeByte_lifecycle (a : Nat) (b : Byte) : (s.storeByte a b).lifecycle = s.lifecycle := rfl
@[simp] theorem State.storeByte_fault (a : Nat) (b : Byte) : (s.storeByte a b).fault = s.fault := rfl
@[simp] theorem State.storeByte_cause (a : Nat) (b : Byte) : (s.storeByte a b).cause = s.cause := rfl
@[simp] theorem State.storeByte_src (a : Nat) (b : Byte) : (s.storeByte a b).src = s.src := rfl
@[simp] theorem State.storeByte_len (a : Nat) (b : Byte) : (s.storeByte a b).len = s.len := rfl
@[simp] theorem State.storeByte_dst (a : Nat) (b : Byte) : (s.storeByte a b).dst = s.dst := rfl
@[simp] theorem State.storeByte_mem (a : Nat) (b : Byte) : (s.storeByte a b).mem = s.mem.write a b := rfl
@[simp] theorem State.storeByte_rdata (a : Nat) (b : Byte) : (s.storeByte a b).rdata = s.rdata := rfl
@[simp] theorem State.storeByte_script (a : Nat) (b : Byte) : (s.storeByte a b).script = s.script := rfl
@[simp] theorem State.storeByte_draws (a : Nat) (b : Byte) : (s.storeByte a b).draws = s.draws := rfl

/-! ### `State.withScript` -/

@[simp] theorem State.withScript_cfg (r : List HostAccess) : (s.withScript r).cfg = s.cfg := rfl
@[simp] theorem State.withScript_pend (r : List HostAccess) : (s.withScript r).pend = s.pend := rfl
@[simp] theorem State.withScript_acc (r : List HostAccess) : (s.withScript r).acc = s.acc := rfl
@[simp] theorem State.withScript_cntLo (r : List HostAccess) : (s.withScript r).cntLo = s.cntLo := rfl
@[simp] theorem State.withScript_cntHi (r : List HostAccess) : (s.withScript r).cntHi = s.cntHi := rfl
@[simp] theorem State.withScript_lifecycle (r : List HostAccess) : (s.withScript r).lifecycle = s.lifecycle := rfl
@[simp] theorem State.withScript_fault (r : List HostAccess) : (s.withScript r).fault = s.fault := rfl
@[simp] theorem State.withScript_cause (r : List HostAccess) : (s.withScript r).cause = s.cause := rfl
@[simp] theorem State.withScript_src (r : List HostAccess) : (s.withScript r).src = s.src := rfl
@[simp] theorem State.withScript_len (r : List HostAccess) : (s.withScript r).len = s.len := rfl
@[simp] theorem State.withScript_dst (r : List HostAccess) : (s.withScript r).dst = s.dst := rfl
@[simp] theorem State.withScript_mem (r : List HostAccess) : (s.withScript r).mem = s.mem := rfl
@[simp] theorem State.withScript_rdata (r : List HostAccess) : (s.withScript r).rdata = s.rdata := rfl
@[simp] theorem State.withScript_script (r : List HostAccess) : (s.withScript r).script = r := rfl
@[simp] theorem State.withScript_draws (r : List HostAccess) : (s.withScript r).draws = s.draws := rfl

/-! ### `State.beginStream` -/

@[simp] theorem State.beginStream_cfg : (s.beginStream).cfg = s.cfg := rfl
@[simp] theorem State.beginStream_pend : (s.beginStream).pend = s.pend := rfl
@[simp] theorem State.beginStream_acc : (s.beginStream).acc = s.cfg.iv := rfl
@[simp] theorem State.beginStream_cntLo : (s.beginStream).cntLo = 0 := rfl
@[simp] theorem State.beginStream_cntHi : (s.beginStream).cntHi = 0 := rfl
@[simp] theorem State.beginStream_lifecycle : (s.beginStream).lifecycle = .active := rfl
@[simp] theorem State.beginStream_fault : (s.beginStream).fault = s.fault := rfl
@[simp] theorem State.beginStream_cause : (s.beginStream).cause = s.cause := rfl
@[simp] theorem State.beginStream_src : (s.beginStream).src = s.src := rfl
@[simp] theorem State.beginStream_len : (s.beginStream).len = s.len := rfl
@[simp] theorem State.beginStream_dst : (s.beginStream).dst = s.dst := rfl
@[simp] theorem State.beginStream_mem : (s.beginStream).mem = s.mem := rfl
@[simp] theorem State.beginStream_rdata : (s.beginStream).rdata = s.rdata := rfl
@[simp] theorem State.beginStream_script : (s.beginStream).script = s.script := rfl
@[simp] theorem State.beginStream_draws : (s.beginStream).draws = s.draws := rfl

/-! ### `State.append` -/

@[simp] theorem State.append_cfg (I : List Byte) : (s.append I).cfg = s.cfg := rfl
@[simp] theorem State.append_pend (I : List Byte) : (s.append I).pend = (absorb s.cfg s.valid s.acc s.pend I).2 := rfl
@[simp] theorem State.append_acc (I : List Byte) : (s.append I).acc = (absorb s.cfg s.valid s.acc s.pend I).1 := rfl
@[simp] theorem State.append_cntLo (I : List Byte) :
    (s.append I).cntLo = (counterAdd s.cfg s.cntLo s.cntHi I.length).1 := rfl
@[simp] theorem State.append_cntHi (I : List Byte) :
    (s.append I).cntHi = (counterAdd s.cfg s.cntLo s.cntHi I.length).2 := rfl
@[simp] theorem State.append_lifecycle (I : List Byte) : (s.append I).lifecycle = s.lifecycle := rfl
@[simp] theorem State.append_fault (I : List Byte) : (s.append I).fault = s.fault := rfl
@[simp] theorem State.append_cause (I : List Byte) : (s.append I).cause = s.cause := rfl
@[simp] theorem State.append_src (I : List Byte) : (s.append I).src = s.src := rfl
@[simp] theorem State.append_len (I : List Byte) : (s.append I).len = s.len := rfl
@[simp] theorem State.append_dst (I : List Byte) : (s.append I).dst = s.dst := rfl
@[simp] theorem State.append_mem (I : List Byte) : (s.append I).mem = s.mem := rfl
@[simp] theorem State.append_rdata (I : List Byte) : (s.append I).rdata = s.rdata := rfl
@[simp] theorem State.append_script (I : List Byte) : (s.append I).script = s.script := rfl
@[simp] theorem State.append_draws (I : List Byte) : (s.append I).draws = s.draws := rfl

/-! ### `State.writeDigest` -/

@[simp] theorem State.writeDigest_cfg : (s.writeDigest).cfg = s.cfg := rfl
@[simp] theorem State.writeDigest_pend : (s.writeDigest).pend = s.pend := rfl
@[simp] theorem State.writeDigest_acc : (s.writeDigest).acc = s.acc := rfl
@[simp] theorem State.writeDigest_cntLo : (s.writeDigest).cntLo = s.cntLo := rfl
@[simp] theorem State.writeDigest_cntHi : (s.writeDigest).cntHi = s.cntHi := rfl
@[simp] theorem State.writeDigest_lifecycle : (s.writeDigest).lifecycle = s.lifecycle := rfl
@[simp] theorem State.writeDigest_fault : (s.writeDigest).fault = s.fault := rfl
@[simp] theorem State.writeDigest_cause : (s.writeDigest).cause = s.cause := rfl
@[simp] theorem State.writeDigest_src : (s.writeDigest).src = s.src := rfl
@[simp] theorem State.writeDigest_len : (s.writeDigest).len = s.len := rfl
@[simp] theorem State.writeDigest_dst : (s.writeDigest).dst = s.dst := rfl
@[simp] theorem State.writeDigest_mem :
    (s.writeDigest).mem = s.mem.writeBytes s.dstOperand (digestBytes s.cfg s.finalAcc) := rfl
@[simp] theorem State.writeDigest_rdata : (s.writeDigest).rdata = s.rdata := rfl
@[simp] theorem State.writeDigest_script : (s.writeDigest).script = s.script := rfl
@[simp] theorem State.writeDigest_draws : (s.writeDigest).draws = s.draws := rfl

/-! ### `State.consume` -/

@[simp] theorem State.consume_cfg : (s.consume).cfg = s.cfg := rfl
@[simp] theorem State.consume_pend : (s.consume).pend = s.cfg.freePend s.draws := rfl
@[simp] theorem State.consume_acc : (s.consume).acc = s.cfg.freeAcc s.draws := rfl
@[simp] theorem State.consume_cntLo : (s.consume).cntLo = s.cfg.freeCntLo s.draws := rfl
@[simp] theorem State.consume_cntHi : (s.consume).cntHi = s.cfg.freeCntHi s.draws := rfl
@[simp] theorem State.consume_lifecycle : (s.consume).lifecycle = .finalized := rfl
@[simp] theorem State.consume_fault : (s.consume).fault = s.fault := rfl
@[simp] theorem State.consume_cause : (s.consume).cause = s.cause := rfl
@[simp] theorem State.consume_src : (s.consume).src = s.src := rfl
@[simp] theorem State.consume_len : (s.consume).len = s.len := rfl
@[simp] theorem State.consume_dst : (s.consume).dst = s.dst := rfl
@[simp] theorem State.consume_mem : (s.consume).mem = s.mem := rfl
@[simp] theorem State.consume_rdata : (s.consume).rdata = s.rdata := rfl
@[simp] theorem State.consume_script : (s.consume).script = s.script := rfl
@[simp] theorem State.consume_draws : (s.consume).draws = s.draws + 1 := rfl

/-! ### `State.issueNext` -/

@[simp] theorem State.issueNext_cfg (w : BitVec 64) : (s.issueNext w).cfg = s.cfg := rfl
@[simp] theorem State.issueNext_pend (w : BitVec 64) : (s.issueNext w).pend = s.pend := rfl
@[simp] theorem State.issueNext_acc (w : BitVec 64) : (s.issueNext w).acc = s.acc := rfl
@[simp] theorem State.issueNext_cntLo (w : BitVec 64) : (s.issueNext w).cntLo = s.cntLo := rfl
@[simp] theorem State.issueNext_cntHi (w : BitVec 64) : (s.issueNext w).cntHi = s.cntHi := rfl
@[simp] theorem State.issueNext_lifecycle (w : BitVec 64) : (s.issueNext w).lifecycle = s.lifecycle := rfl
@[simp] theorem State.issueNext_fault (w : BitVec 64) : (s.issueNext w).fault = s.fault := rfl
@[simp] theorem State.issueNext_cause (w : BitVec 64) : (s.issueNext w).cause = s.cause := rfl
@[simp] theorem State.issueNext_src (w : BitVec 64) : (s.issueNext w).src = s.src := rfl
@[simp] theorem State.issueNext_len (w : BitVec 64) : (s.issueNext w).len = s.len := rfl
@[simp] theorem State.issueNext_dst (w : BitVec 64) : (s.issueNext w).dst = s.dst := rfl
@[simp] theorem State.issueNext_mem (w : BitVec 64) : (s.issueNext w).mem = s.mem := rfl
@[simp] theorem State.issueNext_rdata (w : BitVec 64) : (s.issueNext w).rdata = s.rdata := rfl
@[simp] theorem State.issueNext_script (w : BitVec 64) :
    (s.issueNext w).script = .write (s.cfg.base + Reg.cmd.offset) Reg.cmd.width w :: s.script := rfl
@[simp] theorem State.issueNext_draws (w : BitVec 64) : (s.issueNext w).draws = s.draws := rfl

/-! ### The fill level -/

@[simp] theorem State.forgetTail_valid : s.forgetTail.valid = s.valid := rfl

@[simp] theorem State.withScript_valid (r : List HostAccess) : (s.withScript r).valid = s.valid := rfl

@[simp] theorem State.beginStream_valid : s.beginStream.valid = 0 := Nat.zero_mod _

@[simp] theorem State.raiseFault_valid (k : Cause) : (s.raiseFault k).valid = s.valid := rfl

end Sys2Proof.Machine
end

