-- ==== Sys2Proof/Laws/Step.lean ====
section
/-! SUPPORT. What a command, a Host access and a step can do: one inversion lemma for each. -/

namespace Sys2Proof.Machine

/-! ### Spans -/

/-- The span test of UPDATE is R61's condition. -/
theorem inputSpanValid_iff {s : State} (h : s.cfg.wf = true) :
    inputSpanValid s.cfg s.srcOperand s.lenOperand = true ↔ s.InputSpanOk := by
  simp [inputSpanValid, State.InputSpanOk, AddrSet.hasSpan_iff (wf_readable h)]

/-- The span test of FINALIZE is R63's condition. -/
theorem digestSpanValid_iff {s : State} (h : s.cfg.wf = true) :
    digestSpanValid s.cfg s.dstOperand = true ↔ s.DigestSpanOk := by
  simp [digestSpanValid, State.DigestSpanOk, AddrSet.hasSpan_iff (wf_writable h)]

/-! ### Commands -/

theorem unlessFaulted_running {s : State} (h : s.fault = false) (x : Answer) : s.unlessFaulted x = x := by
  simp [State.unlessFaulted, h]

theorem unlessFaulted_faulted {s : State} (h : s.fault = true) (x : Answer) : s.unlessFaulted x = .next s := by
  simp [State.unlessFaulted, h]

/-- Everything INIT can do while `FAULT = 0`. -/
theorem execInit_running {s : State} (h : s.fault = false) : execInit s = .next s.beginStream.forgetTail := by
  simp [execInit, unlessFaulted_running h]

/-- Everything UPDATE can do while `FAULT = 0`: one of its two faults, or the append. -/
theorem execUpdate_cases {s : State} (h : s.fault = false) :
    (s.lifecycle ≠ .active ∧ execUpdate s = .next (s.raiseFault .notActive)) ∨
      (s.lifecycle = .active ∧ 0 < s.lenOperand ∧ inputSpanValid s.cfg s.srcOperand s.lenOperand = false ∧
        execUpdate s = .next (s.raiseFault .inputSpan)) ∨
      (s.lifecycle = .active ∧ (s.lenOperand = 0 ∨ inputSpanValid s.cfg s.srcOperand s.lenOperand = true) ∧
        execUpdate s = .next (s.append s.input).forgetTail) := by
  rw [execUpdate, unlessFaulted_running h]
  by_cases h1 : s.lifecycle = .active
  · by_cases h2 : 0 < s.lenOperand ∧ inputSpanValid s.cfg s.srcOperand s.lenOperand = false
    · exact .inr (.inl ⟨h1, h2.1, h2.2, by simp [h1, h2]⟩)
    · refine .inr (.inr ⟨h1, ?_, by simp only [h1, ne_eq, not_true_eq_false, if_false, if_neg h2]; rfl⟩)
      by_cases h3 : s.lenOperand = 0
      · exact .inl h3
      · right; simpa [Nat.pos_of_ne_zero h3] using h2
  · exact .inl ⟨h1, by simp [h1]⟩

/-- Everything FINALIZE can do while `FAULT = 0`: one of its two faults, or the digest. -/
theorem execFinalize_cases {s : State} (h : s.fault = false) :
    (s.lifecycle ≠ .active ∧ execFinalize s = .next (s.raiseFault .notActive)) ∨
      (s.lifecycle = .active ∧ digestSpanValid s.cfg s.dstOperand = false ∧
        execFinalize s = .next (s.raiseFault .digestSpan)) ∨
      (s.lifecycle = .active ∧ digestSpanValid s.cfg s.dstOperand = true ∧
        execFinalize s = .next s.writeDigest.consume) := by
  rw [execFinalize, unlessFaulted_running h]
  by_cases h1 : s.lifecycle = .active
  · by_cases h2 : digestSpanValid s.cfg s.dstOperand = false
    · exact .inr (.inl ⟨h1, h2, by simp [h1, h2]⟩)
    · exact .inr (.inr ⟨h1, by simpa using h2, by simp [h1, h2]⟩)
  · exact .inl ⟨h1, by simp [h1]⟩

/-- Everything a command can do: nothing while `FAULT = 1`; else a fault entry, or its own effect. -/
theorem exec_cases {i : Instr} {s t : State} (h : exec i s = .next t) :
    (s.fault = true ∧ t = s) ∨
      (s.fault = false ∧
        ((∃ k, k ≠ Cause.none ∧ i ≠ .init ∧ t = s.raiseFault k) ∨
          (i = .init ∧ t = s.beginStream.forgetTail) ∨
          (i = .update ∧ s.lifecycle = .active ∧
            (s.lenOperand = 0 ∨ inputSpanValid s.cfg s.srcOperand s.lenOperand = true) ∧
            t = (s.append s.input).forgetTail) ∨
          (i = .finalize ∧ s.lifecycle = .active ∧ digestSpanValid s.cfg s.dstOperand = true ∧
            t = s.writeDigest.consume))) := by
  cases hf : s.fault with
  | true =>
    left
    refine ⟨rfl, ?_⟩
    cases i <;>
      simp only [exec, execInit, execUpdate, execFinalize, unlessFaulted_faulted hf, Host.Outcome.next.injEq] at h <;>
      exact h.symm
  | false =>
    right
    refine ⟨rfl, ?_⟩
    cases i with
    | init =>
      rw [exec, execInit_running hf] at h
      exact .inr (.inl ⟨rfl, (Host.Outcome.next.inj h).symm⟩)
    | update =>
      rw [exec] at h
      rcases execUpdate_cases hf with ⟨-, e⟩ | ⟨-, -, -, e⟩ | ⟨h1, h2, e⟩ <;> rw [e] at h <;>
        have h := (Host.Outcome.next.inj h).symm
      · exact .inl ⟨_, by decide, by decide, h⟩
      · exact .inl ⟨_, by decide, by decide, h⟩
      · exact .inr (.inr (.inl ⟨rfl, h1, h2, h⟩))
    | finalize =>
      rw [exec] at h
      rcases execFinalize_cases hf with ⟨-, e⟩ | ⟨-, -, e⟩ | ⟨h1, h2, e⟩ <;> rw [e] at h <;>
        have h := (Host.Outcome.next.inj h).symm
      · exact .inl ⟨_, by decide, by decide, h⟩
      · exact .inl ⟨_, by decide, by decide, h⟩
      · exact .inr (.inr (.inr ⟨rfl, h1, h2, h⟩))

/-! ### Host accesses -/

/-- An access reaches a register exactly at its address and full width (R44). -/
theorem regAt_eq_some {c : Config} {a w : Nat} {r : Reg} :
    regAt c a w = some r ↔ a = c.base + r.offset ∧ w = r.width := by
  constructor
  · intro h
    have := List.find?_some h
    simpa using this
  · rintro ⟨rfl, rfl⟩
    cases r <;> simp [regAt, Reg.offset, Reg.width, List.find?]

/-- Everything a `CMD` write can do. -/
theorem commandWrite_cases {w : BitVec 32} {s t : State} (h : commandWrite w s = .next t) :
    (s.fault = true ∧ t = s) ∨
      (s.fault = false ∧ ((∃ e, decode w = .error e ∧ t = s.raiseFault .illegalCommand) ∨
        ∃ i, decode w = .ok i ∧ exec i s = .next t)) := by
  cases hf : s.fault with
  | true =>
    rw [commandWrite, unlessFaulted_faulted hf] at h
    exact .inl ⟨rfl, (Host.Outcome.next.inj h).symm⟩
  | false =>
    right
    refine ⟨rfl, ?_⟩
    rw [commandWrite, unlessFaulted_running hf] at h
    cases hd : decode w with
    | error e => rw [hd] at h; exact .inl ⟨e, rfl, (Host.Outcome.next.inj h).symm⟩
    | ok i => rw [hd] at h; exact .inr ⟨i, rfl, h⟩

/-- Everything a Host access that goes through can do. -/
theorem hostAccess_cases {x : HostAccess} {s t : State} (h : hostAccess x s = .next t) :
    (∃ v, x = .write (s.cfg.base + Reg.cmd.offset) 32 v ∧ commandWrite (v.setWidth 32) s = .next t) ∨
      (∃ r v, r ≠ Reg.cmd ∧ x = .write (s.cfg.base + r.offset) r.width v ∧
        (t = s ∨ t = s.writeSrc v ∨ t = s.writeLen v ∨ t = s.writeDst v)) ∨
      (∃ v, ((∃ a w, x = .read a w) ∨ ∃ a, x = .load a) ∧ t = s.returnData v) ∨
      (∃ a b, x = .store a b ∧ a < 2 ^ s.cfg.AW ∧ t = s.storeByte a b) ∨
      (x = .reset ∧ t = s.assertReset) := by
  cases x with
  | write a w v =>
    simp only [hostAccess, hostWrite] at h
    cases hr : regAt s.cfg a w with
    | none => simp [hr] at h
    | some r =>
      obtain ⟨rfl, rfl⟩ := regAt_eq_some.1 hr
      cases r <;> simp only [hr, Host.Outcome.next.injEq] at h
      · exact .inl ⟨v, rfl, h⟩
      · exact .inr (.inl ⟨.status, v, by decide, rfl, .inl h.symm⟩)
      · exact .inr (.inl ⟨.src, v, by decide, rfl, .inr (.inl h.symm)⟩)
      · exact .inr (.inl ⟨.len, v, by decide, rfl, .inr (.inr (.inl h.symm))⟩)
      · exact .inr (.inl ⟨.dst, v, by decide, rfl, .inr (.inr (.inr h.symm))⟩)
  | read a w =>
    simp only [hostAccess, hostRead] at h
    right; right; left
    split at h <;> first | exact ⟨_, .inl ⟨a, w, rfl⟩, (Host.Outcome.next.inj h).symm⟩ | cases h
  | store a b =>
    simp only [hostAccess, hostStore] at h
    split at h
    · cases h
    · split at h
      · exact .inr (.inr (.inr (.inl ⟨a, b, rfl, ‹_›, (Host.Outcome.next.inj h).symm⟩)))
      · cases h
  | load a =>
    simp only [hostAccess, hostLoad] at h
    right; right; left
    split at h
    · cases h
    · split at h
      · exact ⟨_, .inr ⟨a, rfl⟩, (Host.Outcome.next.inj h).symm⟩
      · cases h
  | reset => exact .inr (.inr (.inr (.inr ⟨rfl, (Host.Outcome.next.inj h).symm⟩)))

/-- Everything a step that goes through can do: nothing when the Host has no access to make, else the Host's oldest
access, which leaves the script. -/
theorem step_cases {s t : State} (h : step s = .next t) :
    s.cfg.wf = true ∧
      ((s.script = [] ∧ t = s) ∨
        ∃ x rest, s.script = x :: rest ∧ hostAccess x (s.withScript rest) = .next t) := by
  simp only [step, hostStep] at h
  split at h
  · next hc =>
    refine ⟨hc, ?_⟩
    split at h
    · next hs => exact .inl ⟨hs, (Host.Outcome.next.inj h).symm⟩
    · next x rest hs => exact .inr ⟨x, rest, hs, h⟩
  · cases h

/-- A step with an access to make is that access. -/
theorem step_of_script {s : State} (hc : s.cfg.wf = true) {x : HostAccess} {rest : List HostAccess}
    (hs : s.script = x :: rest) : step s = hostAccess x (s.withScript rest) := by
  simp [step, hostStep, hc, hs]

end Sys2Proof.Machine
end

