-- ==== Sys2Proof/Laws/Commands.lean ====
section
/-! SUPPORT. What UPDATE and FINALIZE answer under the conditions of R174 to R176, what UPDATE leaves in `ACC` and
`PEND`, and where the digest bytes stand. -/

namespace Sys2Proof.Machine

theorem valid_lt {s : State} (h : s.Wf) : s.valid < s.cfg.B := Nat.mod_lt _ (wf_sizes h.cfg).B_pos

@[simp] theorem length_input (s : State) : s.input.length = s.lenOperand := by simp [State.input]

/-! ### What a command answers -/

theorem exec_update_ok {s : State} (hc : s.cfg.wf = true) (hf : s.fault = false) (ha : s.lifecycle = .active)
    (hs : s.lenOperand = 0 ∨ s.InputSpanOk) : exec .update s = .next (s.append s.input).forgetTail := by
  rw [← inputSpanValid_iff hc] at hs
  rcases execUpdate_cases hf with ⟨h, -⟩ | ⟨-, h1, h2, -⟩ | ⟨-, -, h⟩
  · exact absurd ha h
  · rcases hs with hs | hs
    · omega
    · simp [hs] at h2
  · exact h

theorem exec_update_notActive {s : State} (hf : s.fault = false) (ha : s.lifecycle ≠ .active) :
    exec .update s = .next (s.raiseFault .notActive) := by
  rcases execUpdate_cases hf with ⟨-, h⟩ | ⟨h, -⟩ | ⟨h, -⟩
  · exact h
  · exact absurd h ha
  · exact absurd h ha

theorem exec_update_inputSpan {s : State} (hc : s.cfg.wf = true) (hf : s.fault = false) (ha : s.lifecycle = .active)
    (hl : 0 < s.lenOperand) (hs : ¬s.InputSpanOk) : exec .update s = .next (s.raiseFault .inputSpan) := by
  rw [← inputSpanValid_iff hc] at hs
  rcases execUpdate_cases hf with ⟨h, -⟩ | ⟨-, -, -, h⟩ | ⟨-, h, -⟩
  · exact absurd ha h
  · exact h
  · rcases h with h | h
    · omega
    · exact absurd h hs

theorem exec_finalize_ok {s : State} (hc : s.cfg.wf = true) (hf : s.fault = false) (ha : s.lifecycle = .active)
    (hs : s.DigestSpanOk) : exec .finalize s = .next s.writeDigest.consume := by
  rw [← digestSpanValid_iff hc] at hs
  rcases execFinalize_cases hf with ⟨h, -⟩ | ⟨-, h1, -⟩ | ⟨-, -, h⟩
  · exact absurd ha h
  · simp [hs] at h1
  · exact h

theorem exec_finalize_notActive {s : State} (hf : s.fault = false) (ha : s.lifecycle ≠ .active) :
    exec .finalize s = .next (s.raiseFault .notActive) := by
  rcases execFinalize_cases hf with ⟨-, h⟩ | ⟨h, -⟩ | ⟨h, -⟩
  · exact h
  · exact absurd h ha
  · exact absurd h ha

theorem exec_finalize_digestSpan {s : State} (hc : s.cfg.wf = true) (hf : s.fault = false) (ha : s.lifecycle = .active)
    (hs : ¬s.DigestSpanOk) : exec .finalize s = .next (s.raiseFault .digestSpan) := by
  rw [← digestSpanValid_iff hc] at hs
  rcases execFinalize_cases hf with ⟨h, -⟩ | ⟨-, -, h⟩ | ⟨-, h, -⟩
  · exact absurd ha h
  · exact h
  · exact absurd h hs

/-! ### UPDATE -/

/-- UPDATE folds the whole blocks of the valid pending bytes and the input into `ACC`, and the bytes after them are what
`PEND` begins with (R117 to R123). -/
theorem append_spec {s : State} (h : s.Wf) :
    (s.append s.input).forgetTail.acc = compress s.cfg s.acc (s.pend.take s.valid ++ s.input) ∧
      (s.append s.input).forgetTail.valid = (s.valid + s.lenOperand) % s.cfg.B ∧
      (s.append s.input).forgetTail.pend.take (s.append s.input).forgetTail.valid
        = (s.pend.take s.valid ++ s.input).drop ((s.valid + s.lenOperand) / s.cfg.B * s.cfg.B) := by
  have hz := wf_sizes h.cfg
  have hv := valid_lt h
  obtain ⟨h1, h2, h3⟩ := absorb_spec hz.B_pos s.acc s.input hv h.pendLength
  have hval : (s.append s.input).forgetTail.valid = (s.valid + s.lenOperand) % s.cfg.B := by
    simp only [State.valid, State.forgetTail_cntLo, State.append_cntLo, State.forgetTail_cfg, State.append_cfg,
      counterAdd, length_input]
    rw [Nat.mod_mod_of_dvd _ hz.B_dvd, Nat.add_mod, Nat.mod_mod_of_dvd _ hz.B_dvd, ← Nat.add_mod, Nat.mod_add_mod]
  refine ⟨h1, hval, ?_⟩
  rw [length_input] at h3
  rw [← h3, hval]
  have hlt := Nat.mod_lt (s.valid + s.lenOperand) hz.B_pos
  rw [State.forgetTail_valid] at hval
  rw [State.forgetTail_pend, hval, List.take_append_of_le_length]
  · rw [List.take_take, Nat.min_self]; rfl
  · simp only [State.append_pend, List.length_take, h2]; omega

/-! ### `F` over one block, and the length field -/

/-- `F` over exactly one block is one issue (R49). -/
theorem compress_one {c : Config} (hB : 0 < c.B) (a : List Word) {X : List Byte} (hX : X.length = c.B) :
    compress c a X = c.applyT a (wordView c X) := by
  have := compress_cons (a := a) hB hX (Y := [])
  rwa [List.append_nil, compress_short (S := []) (by simpa using hB)] at this

/-- `F` as a fold over the block numbers. -/
theorem compress_range (c : Config) (a : List Word) (S : List Byte) :
    compress c a S = (List.range (S.length / c.B)).foldl
      (fun a i => c.applyT a (wordView c (slice (i * c.B) ((i + 1) * c.B) S))) a := by
  rw [compress, blocksOf, List.foldl_map]

@[simp] theorem length_lengthField (c : Config) (N : Nat) : (lengthField c N).length = 2 * c.W := by
  unfold lengthField; simp only; split <;> simp <;> omega

/-- The zero count of the padding, by cases on whether the pad byte and the length field fit (R151). -/
theorem zeroCount_eq {c : Config} (h : Sizes c) (N : Nat) :
    zeroCount c N = if N % c.B + 1 ≤ c.lenField then c.lenField - (N % c.B + 1)
      else c.B - (N % c.B + 1) + c.lenField := by
  have hB := h.B_pos
  have hL := h.lenField_add
  have hr := Nat.mod_lt N hB
  unfold zeroCount
  generalize N % c.B = r at *
  split
  · rw [Int.emod_eq_of_lt (by omega) (by omega)]; omega
  · rw [← Int.add_emod_right, Int.emod_eq_of_lt (by omega) (by omega)]; omega

/-! ### The digest -/

theorem length_flatMap_const {α β : Type} {f : α → List β} {n : Nat} (hf : ∀ x, (f x).length = n) (l : List α) :
    (l.flatMap f).length = l.length * n := by
  induction l with
  | nil => simp
  | cons x l ih => simp [ih, hf, Nat.add_mul, Nat.add_comm]

theorem getD_flatMap_const {α β : Type} {f : α → List β} {n : Nat} (hf : ∀ x, (f x).length = n) {l : List α} (d : β)
    {i j : Nat} (hi : i < l.length) (hj : j < n) : (l.flatMap f).getD (i * n + j) d = (f l[i]).getD j d := by
  induction l generalizing i with
  | nil => simp at hi
  | cons x l ih =>
    rw [List.flatMap_cons]
    cases i with
    | zero =>
      have : j < (f x).length := by rw [hf]; exact hj
      simp [List.getD_eq_getElem?_getD, List.getElem?_append_left this]
    | succ i =>
      have : (f x).length ≤ (i + 1) * n + j := by rw [hf]; nlinarith
      rw [List.getD_eq_getElem?_getD, List.getElem?_append_right this, ← List.getD_eq_getElem?_getD, hf,
        show (i + 1) * n + j - n = i * n + j by rw [Nat.add_mul, Nat.one_mul]; omega]
      exact ih (by simpa using hi)

/-- A digest is `H` bytes (R149). -/
theorem length_digestBytes {c : Config} (h : Sizes c) (acc : List Word) : (digestBytes c acc).length = c.H := by
  rw [digestBytes, length_flatMap_const (n := c.W) (by simp)]; simp [h.nh_mul]

/-- The digest bytes written at `a` stand at `a` (R149). -/
theorem digestAt_write {c : Config} (h : Sizes c) {m : Memory} (hm : m.wf = true) (a : Nat) (acc : List Word) :
    DigestAt c (m.writeBytes a (digestBytes c acc)) a acc := by
  intro i hi j hj
  have hlt : i * c.W + j < (digestBytes c acc).length := by
    rw [length_digestBytes h, ← h.nh_mul]; nlinarith
  have hget : (digestBytes c acc).getD (i * c.W + j) 0 = (serWord c (acc.getD i 0)).getD j 0 := by
    rw [digestBytes, getD_flatMap_const (n := c.W) (by simp) _ (by simpa using hi) hj]; simp
  rw [Nat.add_assoc, Memory.read_writeBytes hm hlt, ← hget]
  simp [List.getD_eq_getElem?_getD, hlt]

end Sys2Proof.Machine
end

