-- ==== Sys2Proof/Laws/PerInstr.lean ====
section
/-! SUPPORT. What holds of every command as syntax, one lemma for each command. -/

namespace Sys2Proof.Laws.RoundTrip

/-- A command is well formed and is decoded from its own word, whose reserved field is 0 (R80, R81, R85). -/
def Statement (i : Instr) : Prop :=
  decode (encode i) = .ok i ∧ opField (encode i) = opOf i ∧ rsvField (encode i) = 0

theorem init : Statement .init := by unfold Statement; decide

theorem update : Statement .update := by unfold Statement; decide

theorem finalize : Statement .finalize := by unfold Statement; decide

end Sys2Proof.Laws.RoundTrip
end

