-- ==== Sys2Proof/Laws/Run.lean ====
section
/-! SUPPORT. Runs of several steps, the lines of a Host program as steps (R89, R90), and the invariants under the
model's small state updates. -/

namespace Sys2Proof.Machine

/-! ### Runs -/

theorem Runs.append {a b : Nat} {s t u : State} (h : Runs a s t) (h' : Runs b t u) : Runs (a + b) s u := by
  induction a generalizing s with
  | zero => cases h; rwa [Nat.zero_add]
  | succ a ih => obtain ⟨v, hv, h⟩ := h; rw [Nat.succ_add]; exact ⟨v, hv, ih h⟩

theorem Runs.split {a b : Nat} {s u : State} (h : Runs (a + b) s u) : ∃ t, Runs a s t ∧ Runs b t u := by
  induction a generalizing s with
  | zero => exact ⟨s, rfl, by rwa [Nat.zero_add] at h⟩
  | succ a ih =>
    rw [Nat.succ_add] at h
    obtain ⟨v, hv, h⟩ := h
    obtain ⟨t, h1, h2⟩ := ih h
    exact ⟨t, ⟨v, hv, h1⟩, h2⟩

theorem Runs.unique {k : Nat} {s t t' : State} (h : Runs k s t) (h' : Runs k s t') : t = t' := by
  induction k generalizing s with
  | zero => cases h; cases h'; rfl
  | succ k ih =>
    obtain ⟨u, hu, h⟩ := h
    obtain ⟨u', hu', h'⟩ := h'
    rw [hu] at hu'
    cases hu'
    exact ih h h'

/-! ### Lines of a Host program -/

/-- A full-width write to a register, as a step (R39 to R44). -/
theorem step_put {s : State} {r : Reg} (hc : s.cfg.wf = true) {v : BitVec 64} {rest : List HostAccess}
    (hs : s.script = r.put s.cfg v :: rest) :
    step s = match (generalizing := false) r with
      | .cmd => commandWrite (v.setWidth 32) (s.withScript rest)
      | .status => .next (s.withScript rest)
      | .src => .next ((s.withScript rest).writeSrc v)
      | .len => .next ((s.withScript rest).writeLen v)
      | .dst => .next ((s.withScript rest).writeDst v) := by
  rw [step_of_script hc hs]
  have : regAt (s.withScript rest).cfg (s.cfg.base + r.offset) r.width = some r := regAt_eq_some.2 ⟨rfl, rfl⟩
  simp only [hostAccess, hostWrite, Reg.put, this]
  cases r <;> rfl

/-- The line that issues a command, as a step (R87, R89). -/
theorem step_issueCommand {s : State} {i : Instr} (hc : s.cfg.wf = true) (hf : s.fault = false)
    {rest : List HostAccess} (hs : s.script = issueCommand s.cfg i :: rest) : step s = exec i (s.withScript rest) := by
  rw [issueCommand] at hs
  rw [step_put hc hs, commandWrite, unlessFaulted_running (by exact hf)]
  cases i <;> rfl

theorem lowBits_lt (n : Nat) (v : BitVec 64) : (lowBits n v).toNat < 2 ^ n := by
  rw [lowBits, BitVec.toNat_ofNat]
  exact (Nat.mod_le _ _).trans_lt (Nat.mod_lt _ (by positivity))

/-- The operand that an operand register of at most 64 bits gives back (R83). -/
theorem toNat_lowBits_mod {n : Nat} (hn : n ≤ 64) (v : BitVec 64) : (lowBits n v).toNat % 2 ^ n = v.toNat % 2 ^ n := by
  rw [lowBits, BitVec.toNat_ofNat, Nat.mod_mod_of_dvd _ (Nat.pow_dvd_pow 2 hn), Nat.mod_mod]

theorem wf_widths {c : Config} (h : c.wf = true) : c.AW ≤ 64 ∧ c.LW ≤ 64 := by
  simp only [Config.wf, Config.widthsWf, Bool.and_eq_true, decide_eq_true_eq] at h
  exact ⟨h.1.1.2.1.1.2, h.1.1.2.2⟩

/-! ### The invariants under small updates -/

theorem State.Wf.withScript {s : State} (h : s.Wf) (rest : List HostAccess) : (s.withScript rest).Wf :=
  ⟨h.cfg, h.pendLength, h.accLength, h.accWords, h.cntLo, h.cntHi, h.src, h.len, h.dst, h.memForm, h.memAddrs, h.cause⟩

theorem State.Wf.raiseFault {s : State} (h : s.Wf) {k : Cause} (hk : k ≠ .none) : (s.raiseFault k).Wf :=
  ⟨h.cfg, h.pendLength, h.accLength, h.accWords, h.cntLo, h.cntHi, h.src, h.len, h.dst, h.memForm, h.memAddrs,
    by simp [hk]⟩

theorem State.Wf.forget {s : State} (h : s.Wf) : s.forget.Wf :=
  ⟨h.cfg, length_freePend _ _, length_freeAcc _ _, fun _ hw => freeAcc_lt hw, freeCntLo_lt _ _, freeCntHi_lt _ _, h.src,
    h.len, h.dst, h.memForm, h.memAddrs, h.cause⟩

theorem State.Wf.forgetTail {s : State} (h : s.Wf) : s.forgetTail.Wf := by
  have := h.pendLength
  have := valid_lt h
  exact ⟨h.cfg, by simp; omega, h.accLength, h.accWords, h.cntLo, h.cntHi, h.src, h.len, h.dst, h.memForm, h.memAddrs,
    h.cause⟩

/-- The stream a state holds depends on the engine's registers only, not on operands, memory or script (R49). -/
theorem State.Holds.of_eq {s t : State} {S : List Byte} (h : s.Holds S) (h1 : t.cfg = s.cfg) (h2 : t.pend = s.pend)
    (h3 : t.acc = s.acc) (h4 : t.cntLo = s.cntLo) (h5 : t.cntHi = s.cntHi) (h6 : t.lifecycle = s.lifecycle)
    (h7 : t.fault = s.fault) : t.Holds S := by
  have hv : t.valid = s.valid := by rw [State.valid, State.valid, h4, h1]
  exact ⟨h6.trans h.active, h7.trans h.running, by rw [State.cnt, h5, h4, h1]; exact h.count,
    by rw [hv, h1]; exact h.fill, by rw [hv, h2]; exact h.pending, by rw [h3, hv, h1]; exact h.folded⟩

end Sys2Proof.Machine
end

