-- ==== Sys2Proof/Tests/Slice0.lean ====
section
/-! SUPPORT. Checks of the model: ill-formed configurations are refused, words written out from the encoding decode,
vectors of 95_test_vectors.md, and for each obligation with hypotheses a state that meets them. Expected values are the
spec's. -/

namespace Sys2Proof.Tests

open Sys2Proof.Machine

/-! ### Well-formedness: one broken configuration for each check -/

theorem test_toy_configurations_accepted : Config.toyA.wf = true ∧ Config.toyB.wf = true := by decide

theorem test_refuse_W_zero : ({ Config.toyA with W := 0 } : Config).wf = false := by decide
theorem test_refuse_B_not_power : ({ Config.toyA with B := 6 } : Config).wf = false := by decide
theorem test_refuse_W_not_dividing_B : ({ Config.toyB with W := 3, H := 3, iv := [1] } : Config).wf = false := by decide
theorem test_refuse_B_below_two_words : ({ Config.toyB with B := 2 } : Config).wf = false := by decide
theorem test_refuse_B_above_word_range : ({ Config.toyA with B := 512 } : Config).wf = false := by decide
theorem test_refuse_H_not_multiple : ({ Config.toyB with H := 5 } : Config).wf = false := by decide
theorem test_refuse_H_below_W : ({ Config.toyB with H := 0, iv := [] } : Config).wf = false := by decide
theorem test_refuse_offset_two : ({ Config.toyA with offset := 2 } : Config).wf = false := by decide
theorem test_refuse_iv_length : ({ Config.toyA with iv := [1] } : Config).wf = false := by decide
theorem test_refuse_iv_word : ({ Config.toyA with iv := [1, 0x100] } : Config).wf = false := by decide
theorem test_refuse_AW_zero : ({ Config.toyA with AW := 0, readable := [], writable := [] } : Config).wf = false := by
  decide
theorem test_refuse_AW_65 : ({ Config.toyA with AW := 65 } : Config).wf = false := by decide
theorem test_refuse_LW_zero : ({ Config.toyA with LW := 0 } : Config).wf = false := by decide
theorem test_refuse_LW_65 : ({ Config.toyA with LW := 65 } : Config).wf = false := by decide
theorem test_refuse_empty_range : ({ Config.toyA with readable := [⟨5, 5⟩] } : Config).wf = false := by decide
theorem test_refuse_touching_ranges : ({ Config.toyA with readable := [⟨0, 5⟩, ⟨5, 9⟩] } : Config).wf = false := by
  decide
theorem test_refuse_set_above_AW : ({ Config.toyA with readable := [⟨0xF020, 0x10001⟩] } : Config).wf = false := by
  decide
theorem test_refuse_readable_in_window : ({ Config.toyA with readable := [⟨0, 0xF001⟩] } : Config).wf = false := by
  decide
theorem test_refuse_writable_in_window : ({ Config.toyA with writable := [⟨0xF01F, 0xF020⟩] } : Config).wf = false := by
  decide

/-- The check passes exactly at its limits: `B = 2*W`, `B = 2^wb`, `H = W`, `AW = LW = 64`, and sets that end where the
window begins and begin where it ends. -/
theorem test_accept_limits : ({ Config.toyA with B := 2 } : Config).wf = true ∧
    ({ Config.toyA with B := 256 } : Config).wf = true ∧ ({ Config.toyA with H := 1, iv := [1] } : Config).wf = true ∧
    ({ Config.toyA with AW := 64, LW := 64 } : Config).wf = true ∧
    ({ Config.toyA with readable := [⟨0, 0xF000⟩, ⟨0xF020, 0x10000⟩] } : Config).wf = true := by decide

/-! ### Decoding: words written bit by bit as `RSV` (28 bits) and `OP` (4 bits), R80 and R81 -/

theorem test_decode_init : decode 0b0000000000000000000000000000_0001 = .ok .init := by decide
theorem test_decode_update : decode 0b0000000000000000000000000000_0010 = .ok .update := by decide
theorem test_decode_finalize : decode 0b0000000000000000000000000000_0011 = .ok .finalize := by decide
theorem test_decode_reserved_op : decode 0b0000000000000000000000000000_0100 = .error .reservedOp ∧
    decode 0b0000000000000000000000000000_0000 = .error .reservedOp := by decide
theorem test_decode_reserved_field : decode 0b0000000000000000000000000001_0001 = .error .reservedField ∧
    decode 0b1000000000000000000000000000_0001 = .error .reservedField := by decide

theorem test_decodeTableWord : decodeTableWord 32 1 = some .init ∧ decodeTableWord 32 2 = some .update ∧
    decodeTableWord 32 3 = some .finalize ∧ decodeTableWord 32 4 = none ∧ decodeTableWord 40 0x100000001 = none := by
  decide

/-! ### Helpers -/

/-- Does the step go through, to a state with the property? -/
def good (x : Answer) (P : State → Bool) : Bool :=
  match x with
  | .next t => P t
  | .fault _ => false
  | .refused _ => false

theorem exists_of_good {x : Answer} {P : State → Bool} (h : good x P = true) : ∃ t, x = .next t ∧ P t = true := by
  cases x with
  | next t => exact ⟨t, rfl, h⟩
  | fault _ => cases h
  | refused _ => cases h

/-- TOY-A in the middle of a stream: one block `01 02 03 04` folded in from `IV` (3.5: `ACC = [0x0C, 0x03]`), and three
bytes `61 62 63` pending. -/
def sA : State where
  cfg := Config.toyA
  pend := [0x61, 0x62, 0x63, 0xEE]
  acc := [0x0C, 0x03]
  cntLo := 0x07
  cntHi := 0x00
  lifecycle := .active
  fault := false
  cause := .none
  src := 0x0100
  len := 10
  dst := 0x0200
  mem := [(0x0100, 0x01), (0x0101, 0x02), (0x0102, 0x03), (0x0103, 0x04)]
  rdata := 0
  script := []
  draws := 1

/-- The stream that `sA` holds. -/
def streamA : List Byte := [0x01, 0x02, 0x03, 0x04, 0x61, 0x62, 0x63]

/-- TOY-B with four bytes pending: program 4 of 95_test_vectors.md §5 before its FINALIZE. -/
def sB : State where
  cfg := Config.toyB
  pend := [0xDE, 0xAD, 0xBE, 0xEF, 0xEE, 0xEE, 0xEE, 0xEE]
  acc := [0x0001, 0x0002]
  cntLo := 4
  cntHi := 0
  lifecycle := .active
  fault := false
  cause := .none
  src := 0x3000
  len := 4
  dst := 0x3100
  mem := [(0x3000, 0xDE), (0x3001, 0xAD), (0x3002, 0xBE), (0x3003, 0xEF)]
  rdata := 0
  script := []
  draws := 1

/-- `sA`, faulted (R178). -/
def sF : State := { sA with fault := true, cause := .notActive }

/-! ### Vectors of 95_test_vectors.md, two theorems for each command -/

/-- IN-2: a second INIT in the middle of a stream. -/
theorem test_init_restarts : good (exec .init { sA with acc := [0x55, 0x09], cntLo := 3 }) (fun t =>
    t.acc == [0x01, 0x02] && t.cntLo == 0 && t.cntHi == 0 && t.valid == 0 && t.status == 0x00000001) = true := by decide

/-- IN-5: a faulted engine ignores INIT. -/
theorem test_init_faulted : good (commandWrite 0x00000001 { sF with lifecycle := .finalized }) (fun t =>
    t.status == 0x00000026 && t.acc == sF.acc && t.cntLo == sF.cntLo) = true := by decide

/-- Program 2, line 7: a top-up, one whole block and a remainder, big-endian words. -/
theorem test_update_schedule : good (exec .update { sB with
      pend := [0x01, 0x02, 0x03, 0x04, 0x05, 0xEE, 0xEE, 0xEE], cntLo := 5, src := 0x1005, len := 14
      mem := [(0x1005, 0x06), (0x1006, 0x07), (0x1007, 0x08), (0x1008, 0x09), (0x1009, 0x0A), (0x100A, 0x0B),
        (0x100B, 0x0C), (0x100C, 0x0D), (0x100D, 0x0E), (0x100E, 0x0F), (0x100F, 0x10), (0x1010, 0x11),
        (0x1011, 0x12), (0x1012, 0x13)] }) (fun t =>
    t.acc == [0x4049, 0x0004] && t.cntLo == 19 && t.valid == 3 && t.pend.take 3 == [0x11, 0x12, 0x13]
      && t.status == 0x00000001) = true := by decide

/-- BC-7, BC-8, BC-13: the carry and the high part of the length together; and UF-5: the span leaves `Readable`. -/
theorem test_update_counter_and_span :
    counterAdd Config.toyA 0xFC 0x00 0x0104 = (0x00, 0x02) ∧ counterAdd Config.toyA 0x34 0x12 0xFFFF = (0x33, 0x12) ∧
    counterAdd Config.toyB 0xFFFF 0xFFFF 0x0002 = (0x0001, 0x0000) ∧
    good (exec .update { sA with src := 0xEFFF, len := 2 }) (fun t =>
      t.status == 0x00000035 && t.acc == sA.acc && t.cntLo == sA.cntLo) = true := by decide

/-- Program 1: `abc` in TOY-A takes two blocks, digest `68 04`. -/
theorem test_finalize_two_blocks : good (exec .finalize { sA with acc := [0x01, 0x02], cntLo := 3 }) (fun t =>
    t.mem.read 0x0200 == 0x68 && t.mem.read 0x0201 == 0x04 && t.status == 0x00000002) = true := by decide

/-- Program 2, line 9: the one-block path and an odd `dst`; program 4: `VALID = L`; and FF-3. -/
theorem test_finalize_boundaries :
    good (exec .finalize { sB with
        pend := [0x11, 0x12, 0x13, 0xEE, 0xEE, 0xEE, 0xEE, 0xEE], acc := [0x4049, 0x0004], cntLo := 19
        dst := 0x2001 }) (fun t => t.mem.readSpan 0x2000 6 == [0x00, 0x65, 0x73, 0x00, 0x05, 0x00]) = true ∧
    good (exec .finalize sB) (fun t => t.mem.readSpan 0x3100 4 == [0x1D, 0xBD, 0x00, 0x04]) = true ∧
    good (exec .finalize { sA with dst := 0xEFFF }) (fun t => t.status == 0x00000045 && t.mem == sA.mem) = true := by
  decide

/-- 3.7: the four layouts of the length field. -/
theorem test_length_field_layouts :
    putLength { Config.toyB with order := .le, offset := 0 } (0x1A28, 0x0009) (zeros 8)
      = [0, 0, 0, 0, 0x28, 0x1A, 0x09, 0x00] ∧
    putLength Config.toyB (0x1A28, 0x0009) (zeros 8) = [0, 0, 0, 0, 0x00, 0x09, 0x1A, 0x28] ∧
    putLength { Config.toyB with order := .le } (0x1A28, 0x0009) (zeros 8) = [0, 0, 0, 0, 0x09, 0x00, 0x28, 0x1A] ∧
    putLength { Config.toyB with offset := 0 } (0x1A28, 0x0009) (zeros 8) = [0, 0, 0, 0, 0x1A, 0x28, 0x00, 0x09] := by
  decide

/-- The first step after reset runs the command that `withFetchWord` gives it. -/
theorem test_step_from_reset :
    good (step (State.reset.withFetchWord 32 1)) (fun t => t.status == 0x00000001 && t.acc == [0x01, 0x02]) = true ∧
    good (step (State.reset.withFetchWord 32 2)) (fun t => t.status == 0x00000024) = true ∧
    good (step (State.reset.withFetchWord 32 3)) (fun t => t.status == 0x00000024) = true ∧
    good (step (State.reset.withFetchWord 32 0x12)) (fun t => t.status == 0x00000014) = true := by decide

/-! ### Witnesses: states that meet the hypotheses of the obligations, one theorem for each obligation that has some -/

theorem sA_wf : sA.Wf := by constructor <;> decide
theorem sB_wf : sB.Wf := by constructor <;> decide
theorem sF_wf : sF.Wf := by constructor <;> decide

/-- `sA` holds the stream `01 02 03 04 61 62 63` (R49). -/
theorem sA_holds : sA.Holds streamA := by constructor <;> decide

/-- A valid input span, and one at the last readable address (UF-6). -/
theorem sA_inputSpan : sA.InputSpanOk ∧ { sA with src := 0xEFFF, len := 1 }.InputSpanOk := by
  unfold State.InputSpanOk; decide

/-- A valid digest span, and one at the last writable address (FF-5). -/
theorem sA_digestSpan : sA.DigestSpanOk ∧ { sA with dst := 0xEFFE }.DigestSpanOk := by
  unfold State.DigestSpanOk; decide

theorem sB_digestSpan : sB.DigestSpanOk := by unfold State.DigestSpanOk; decide

theorem witness_ExactlyThreeWordsAreLegal :
    sA.fault = false ∧ (0x00000004 : BitVec 32) ≠ 0x00000001 ∧ (0x00000004 : BitVec 32) ≠ 0x00000002 ∧
      (0x00000004 : BitVec 32) ≠ 0x00000003 ∧ (0x00000000 : BitVec 32) ≠ 0x00000001 ∧
      (0x00000000 : BitVec 32) ≠ 0x00000002 ∧ (0x00000000 : BitVec 32) ≠ 0x00000003 := by decide

theorem witness_DecodeAndEncodeAgree : Instr.init.wf = true ∧ Instr.update.wf = true ∧ Instr.finalize.wf = true ∧
    decode 0x00000003 = .ok .finalize := by decide

theorem witness_StepRunsTheIssuedCommand :
    sA.cfg.wf = true ∧ sA.fault = false ∧ { sA with script := [.write 0xF000 32 2] }.script = [.write sA.cfg.base 32 2] ∧
      decode ((2 : BitVec 64).setWidth 32) = .ok .update ∧ 3 < 2 ^ 32 ∧ decode (BitVec.ofNat 32 3) = .ok .finalize := by
  decide

/-- `sA` in another configuration. -/
def under (c : Config) : State := { sA with cfg := c }

/-- One configuration for each way of breaking R20 and R78. -/
theorem witness_BrokenConfigurationHasNoMachine :
    (¬∃ k, (under { Config.toyA with B := 6 }).cfg.B = 2 ^ k) ∧
      ¬(under { Config.toyB with W := 3 }).cfg.W ∣ (under { Config.toyB with W := 3 }).cfg.B ∧
      (under { Config.toyB with B := 2 }).cfg.B < 2 * (under { Config.toyB with B := 2 }).cfg.W ∧
      2 ^ (8 * (under { Config.toyA with B := 512 }).cfg.W) < (under { Config.toyA with B := 512 }).cfg.B ∧
      ¬(under { Config.toyB with H := 5 }).cfg.W ∣ (under { Config.toyB with H := 5 }).cfg.H ∧
      (under { Config.toyB with H := 1 }).cfg.H < (under { Config.toyB with H := 1 }).cfg.W ∧
      ((under { Config.toyA with offset := 2 }).cfg.offset ≠ 0 ∧ (under { Config.toyA with offset := 2 }).cfg.offset ≠ 1) ∧
      (under { Config.toyA with W := 0 }).cfg.W < 1 ∧
      ¬(1 ≤ (under { Config.toyA with AW := 65 }).cfg.AW ∧ (under { Config.toyA with AW := 65 }).cfg.AW ≤ 64) ∧
      ¬(1 ≤ (under { Config.toyA with LW := 0 }).cfg.LW ∧ (under { Config.toyA with LW := 0 }).cfg.LW ≤ 64) ∧
      (under { Config.toyA with readable := [⟨0, 0xF001⟩] }).cfg.readable.has 0xF000 = true ∧
      (under { Config.toyA with writable := [⟨0xF01F, 0xF020⟩] }).cfg.writable.has 0xF01F = true ∧
      ∃ t, exec .init sA = .next t := by
  refine ⟨?_, by decide, by decide, by decide, by decide, by decide, by decide, by decide, by decide, by decide,
    by decide, by decide, _, rfl⟩
  rintro ⟨k, hk⟩
  have hk : 6 = 2 ^ k := hk
  rcases k with _ | _ | _ | k
  · omega
  · omega
  · omega
  · rw [pow_succ, pow_succ, pow_succ] at hk; omega

theorem witness_InitStartsStream : sA.fault = false ∧ sA.cause = .none := by decide

theorem witness_InitHoldsEmptyStream : sA.Wf ∧ sA.fault = false ∧ sA.DigestSpanOk ∧ sB.Wf ∧ sB.DigestSpanOk :=
  ⟨sA_wf, rfl, sA_digestSpan.1, sB_wf, sB_digestSpan⟩

theorem witness_UpdateCountsBytes : sA.cfg.wf = true ∧ sA.fault = false ∧ sA.lifecycle = .active ∧ sA.InputSpanOk ∧
    { sA with src := 0xEFFF, len := 1 }.InputSpanOk ∧ { sA with src := 0xF000, len := 0 }.lenOperand = 0 :=
  ⟨by decide, rfl, rfl, sA_inputSpan.1, sA_inputSpan.2, by decide⟩

theorem witness_CounterLaw :
    sA.Wf ∧ sA.fault = false ∧ sA.lifecycle = .active ∧ (sA.lenOperand = 0 ∨ sA.InputSpanOk) :=
  ⟨sA_wf, rfl, rfl, .inr sA_inputSpan.1⟩

theorem witness_ShiftGuard : sB.cfg.LW ≤ sB.cfg.wb := by decide

theorem witness_FillLevelSurvivesWrap : sA.Wf ∧ sA.cntLo = 7 % 2 ^ sA.cfg.wb ∧ sA.cntLo = 263 % 2 ^ sA.cfg.wb :=
  ⟨sA_wf, by decide, by decide⟩

theorem witness_UpdateOfNoBytes :
    { sA with len := 0 }.Wf ∧ sA.fault = false ∧ { sA with len := 0 }.lenOperand = 0 ∧ sA.lifecycle = .active ∧
      { sA with len := 0, lifecycle := .finalized }.Wf ∧ { sA with len := 0, lifecycle := .finalized }.lifecycle ≠ .active :=
  ⟨by constructor <;> decide, rfl, by decide, rfl, by constructor <;> decide, by decide⟩

/-- UP-4: two bytes pending and one more; the block is short of one byte. -/
theorem witness_PartialTopUp :
    { sA with cntLo := 2, len := 1 }.Wf ∧ { sA with cntLo := 2, len := 1 }.InputSpanOk ∧
      { sA with cntLo := 2, len := 1 }.valid ≠ 0 ∧
      { sA with cntLo := 2, len := 1 }.valid + { sA with cntLo := 2, len := 1 }.lenOperand < sA.cfg.B :=
  ⟨by constructor <;> decide, by unfold State.InputSpanOk; decide, by decide, by decide⟩

/-- UP-5 and UP-8: three bytes pending, and one byte or ten more. -/
theorem witness_CompletingTopUp :
    { sA with len := 1 }.Wf ∧ { sA with len := 1 }.InputSpanOk ∧ { sA with len := 1 }.valid ≠ 0 ∧
      sA.cfg.B ≤ { sA with len := 1 }.valid + { sA with len := 1 }.lenOperand ∧
      sA.Wf ∧ sA.InputSpanOk ∧ sA.valid ≠ 0 ∧ sA.cfg.B ≤ sA.valid + sA.lenOperand :=
  ⟨by constructor <;> decide, by unfold State.InputSpanOk; decide, by decide, by decide, sA_wf, sA_inputSpan.1,
    by decide, by decide⟩

/-- UP-7: nothing pending, nine bytes. -/
theorem witness_BlocksThenRemainder :
    { sA with cntLo := 4, len := 9 }.Wf ∧ { sA with cntLo := 4, len := 9 }.InputSpanOk ∧
      { sA with cntLo := 4, len := 9 }.valid = 0 :=
  ⟨by constructor <;> decide, by unfold State.InputSpanOk; decide, by decide⟩

theorem witness_UpdateExtendsStream : sA.Wf ∧ sA.Holds streamA ∧ (sA.lenOperand = 0 ∨ sA.InputSpanOk) :=
  ⟨sA_wf, sA_holds, .inr sA_inputSpan.1⟩

theorem witness_FinalizeWritesDigest : sA.Wf ∧ sA.fault = false ∧ sA.lifecycle = .active ∧ sA.DigestSpanOk ∧
    { sA with dst := 0xEFFE }.DigestSpanOk ∧ 0x01FF < sA.dstOperand ∧ sA.dstOperand + sA.cfg.H ≤ 0x0202 :=
  ⟨sA_wf, rfl, rfl, sA_digestSpan.1, sA_digestSpan.2, by decide, by decide⟩

theorem witness_BitCountLaw : sA.Wf ∧ sB.Wf ∧ sA.Holds streamA := ⟨sA_wf, sB_wf, sA_holds⟩

/-- The last single-block fill level, `VALID + 1 = L`, in TOY-A. -/
theorem witness_OneFinalBlock :
    { sA with cntLo := 5 }.Wf ∧ { sA with cntLo := 5 }.DigestSpanOk ∧
      { sA with cntLo := 5 }.valid + 1 ≤ sA.cfg.lenField :=
  ⟨by constructor <;> decide, by unfold State.DigestSpanOk; decide, by decide⟩

/-- The first two-block fill level, `VALID = L`, in TOY-A; and a state of a configuration with `B = 2*W`. -/
theorem witness_TwoFinalBlocks :
    { sA with cntLo := 6 }.Wf ∧ { sA with cntLo := 6 }.DigestSpanOk ∧
      sA.cfg.lenField < { sA with cntLo := 6 }.valid + 1 ∧
      { sA with cfg := { Config.toyA with B := 2 }, pend := [0x61, 0x62] }.Wf ∧
      { sA with cfg := { Config.toyA with B := 2 }, pend := [0x61, 0x62] }.DigestSpanOk ∧
      ({ Config.toyA with B := 2 } : Config).B = 2 * ({ Config.toyA with B := 2 } : Config).W :=
  ⟨by constructor <;> decide, by unfold State.DigestSpanOk; decide, by decide, by constructor <;> decide,
    by unfold State.DigestSpanOk; decide, by decide⟩

theorem witness_LengthFieldSlots : Config.toyA.wf = true ∧ sA.pend.length = Config.toyA.B ∧ Config.toyA.offset = 0 ∧
    Config.toyB.wf = true ∧ sB.pend.length = Config.toyB.B ∧ Config.toyB.offset = 1 := by decide

/-- The four pairs of `ORDER` and `OFFSET`, and the greatest words. -/
theorem witness_LengthFieldReadsBack : Config.toyB.wf = true ∧ sB.pend.length = Config.toyB.B ∧
    0xFFFF < 2 ^ Config.toyB.wb ∧ 0 < 2 ^ Config.toyB.wb ∧ 3 < 2 * Config.toyB.W ∧
    ({ Config.toyB with order := .le } : Config).wf = true ∧ ({ Config.toyB with offset := 0 } : Config).wf = true ∧
    ({ Config.toyB with order := .le, offset := 0 } : Config).wf = true := by decide

theorem witness_SerialisingInvertsAssembling : 0xFFFF < 2 ^ Config.toyB.wb ∧
    [0x98, 0x00].length = Config.toyB.W ∧ 1 < Config.toyB.W := by decide

theorem witness_FinalizeHashesPaddedStream : sA.Wf ∧ sA.Holds streamA ∧ sA.DigestSpanOk ∧
    (4 + 1 + 7 + 2 * Config.toyB.W) % Config.toyB.B = 0 ∧ 1 ≤ Config.toyB.lenField ∧
    ({ Config.toyA with B := 2 } : Config).wf = true ∧ ({ Config.toyA with B := 2 } : Config).lenField = 0 :=
  ⟨sA_wf, sA_holds, sA_digestSpan.1, by decide, by decide, by decide, by decide⟩

/-- `sA` with one byte pending, the last fill level of one final block in TOY-A, and its stream. -/
def sOne : State := { sA with cntLo := 5 }

theorem sOne_holds : sOne.Holds [0x01, 0x02, 0x03, 0x04, 0x61] := by constructor <;> decide

/-- The two fill levels around `L`; a state whose FINALIZE issues two blocks, and one whose FINALIZE issues one. -/
theorem witness_IssueCounts : Config.toyB.wf = true ∧ 3 % Config.toyB.B < Config.toyB.lenField ∧
    ¬4 % Config.toyB.B < Config.toyB.lenField ∧ sA.Wf ∧ sA.Holds streamA ∧ sA.DigestSpanOk ∧ ¬sA.valid < sA.cfg.lenField ∧
    sOne.Wf ∧ sOne.Holds [0x01, 0x02, 0x03, 0x04, 0x61] ∧ sOne.DigestSpanOk ∧ sOne.valid < sOne.cfg.lenField :=
  ⟨by decide, by decide, by decide, sA_wf, sA_holds, sA_digestSpan.1, by decide, by constructor <;> decide, sOne_holds,
    by unfold State.DigestSpanOk; decide, by decide⟩

theorem witness_FinalizedEngineNeedsInit :
    sA.fault = false ∧ ∃ t, exec .finalize sA = .next t ∧ t.fault = false := by
  obtain ⟨t, h, ht⟩ := exists_of_good (x := exec .finalize sA) (P := fun t => t.fault == false) (by decide)
  exact ⟨rfl, t, h, by simpa using ht⟩

theorem witness_NotActiveFault :
    { sA with lifecycle := .uninit }.fault = false ∧ { sA with lifecycle := .uninit }.lifecycle = .uninit ∧
      { sA with lifecycle := .finalized }.fault = false ∧ { sA with lifecycle := .finalized }.lifecycle = .finalized ∧
      ∃ t, exec .init sA = .next t := ⟨rfl, rfl, rfl, rfl, _, rfl⟩

/-- UF-4 and UF-5: a span that wraps, and one that leaves `Readable` at its last address. -/
theorem witness_InputSpanFault : sA.cfg.wf = true ∧ sA.fault = false ∧ sA.lifecycle = .active ∧
    0 < { sA with src := 0xFFFF, len := 2 }.lenOperand ∧
    2 ^ sA.cfg.AW < { sA with src := 0xFFFF, len := 2 }.srcOperand + { sA with src := 0xFFFF, len := 2 }.lenOperand ∧
    ∃ k < { sA with src := 0xEFFF, len := 2 }.lenOperand,
      sA.cfg.readable.has ({ sA with src := 0xEFFF, len := 2 }.srcOperand + k) = false := by decide

/-- FF-4 and FF-3. -/
theorem witness_DigestSpanFault : sA.cfg.wf = true ∧ sA.fault = false ∧ sA.lifecycle = .active ∧
    2 ^ sA.cfg.AW < { sA with dst := 0xFFFF }.dstOperand + sA.cfg.H ∧
    ∃ k < sA.cfg.H, sA.cfg.writable.has ({ sA with dst := 0xEFFF }.dstOperand + k) = false := by decide

/-- A state for each of the checks of R177, and for the write that none of them stops. -/
theorem witness_FaultPriority : sA.cfg.wf = true ∧ sF.fault = true ∧ sA.fault = false ∧
    ((0x12 : BitVec 32) ≠ 1 ∧ (0x12 : BitVec 32) ≠ 2 ∧ (0x12 : BitVec 32) ≠ 3) ∧
    { sA with lifecycle := .uninit }.lifecycle ≠ .active ∧ sA.lifecycle = .active ∧
    0 < { sA with src := 0xFFFF, len := 1 }.lenOperand ∧ ¬{ sA with src := 0xFFFF, len := 1 }.InputSpanOk ∧
    ¬{ sA with dst := 0xEFFF }.DigestSpanOk ∧ sA.InputSpanOk ∧ sA.DigestSpanOk := by
  unfold State.InputSpanOk State.DigestSpanOk; decide

theorem witness_FaultsArePrecise :
    sA.fault = false ∧ ∃ t, commandWrite 0x00000012 sA = .next t ∧ t.fault = true := by
  obtain ⟨t, h, ht⟩ := exists_of_good (x := commandWrite 0x00000012 sA) (P := fun t => t.fault) (by decide)
  exact ⟨rfl, t, h, ht⟩

theorem witness_QuiescentWhileFaulted : sF.cfg.wf = true ∧ sF.fault = true ∧
    { sF with script := [.write 0xF000 32 1] }.script = [.write sF.cfg.base 32 1] ∧
    { sF with script := [.read 0xF004 32] }.script = [.read (sF.cfg.base + 0x04) 32] ∧
    { sF with script := [.write 0xF010 64 0] }.script = [Reg.len.put sF.cfg 0] ∧
    { sF with script := [.read 0xF018 64] }.script = [Reg.dst.get sF.cfg] := by decide

theorem witness_CommandsIgnoredWhileFaulted : sF.fault = true := rfl

theorem witness_OnlyResetClearsFault : sF.fault = true ∧
    (∃ t, step { sF with script := [.reset] } = .next t) ∧
    ∃ t, step { sF with script := [.write 0xF000 32 1] } = .next t := by
  obtain ⟨t, h, -⟩ := exists_of_good (x := step { sF with script := [.reset] }) (P := fun _ => true) (by decide)
  obtain ⟨u, h', -⟩ := exists_of_good (x := step { sF with script := [.write 0xF000 32 1] }) (P := fun _ => true)
    (by decide)
  exact ⟨rfl, ⟨t, h⟩, u, h'⟩

/-- Every command answers next in `sA`; 0x01FF and 0x0202 are the addresses just outside the digest span. -/
theorem witness_NoCommandWritesOperands : (∃ t, exec .init sA = .next t) ∧ (∃ t, exec .update sA = .next t) ∧
    (∃ t, exec .finalize sA = .next t) ∧ Instr.update ≠ .finalize ∧ 0x01FF < sA.dstOperand ∧
    sA.dstOperand + sA.cfg.H ≤ 0x0202 ∧ sA.cfg.wf = true := by
  obtain ⟨t, h, -⟩ := exists_of_good (x := exec .update sA) (P := fun _ => true) (by decide)
  obtain ⟨u, h', -⟩ := exists_of_good (x := exec .finalize sA) (P := fun _ => true) (by decide)
  exact ⟨⟨_, rfl⟩, ⟨t, h⟩, ⟨u, h'⟩, by decide, by decide, by decide, by decide⟩

theorem witness_LifecycleMoves :
    (∃ t, step { sA with script := [.reset] } = .next t ∧ t.lifecycle ≠ sA.lifecycle) ∧
    (∃ t, step { sA with script := [.write 0xF000 32 1], lifecycle := .uninit } = .next t ∧ t.lifecycle ≠ .uninit) ∧
    ∃ t, step { sA with script := [.write 0xF000 32 3] } = .next t ∧ t.lifecycle ≠ sA.lifecycle := by
  refine ⟨?_, ?_, ?_⟩
  · obtain ⟨t, h, ht⟩ := exists_of_good (x := step { sA with script := [.reset] })
      (P := fun t => t.lifecycle == .uninit) (by decide)
    exact ⟨t, h, by rw [eq_of_beq ht]; decide⟩
  · obtain ⟨t, h, ht⟩ := exists_of_good (x := step { sA with script := [.write 0xF000 32 1], lifecycle := .uninit })
      (P := fun t => t.lifecycle == .active) (by decide)
    exact ⟨t, h, by rw [eq_of_beq ht]; decide⟩
  · obtain ⟨t, h, ht⟩ := exists_of_good (x := step { sA with script := [.write 0xF000 32 3] })
      (P := fun t => t.lifecycle == .finalized) (by decide)
    exact ⟨t, h, by rw [eq_of_beq ht]; decide⟩

/-- A state like `sA` with another byte beyond `VALID`, the same input elsewhere, and another `dst`. -/
def sA' : State :=
  { sA with
    pend := [0x61, 0x62, 0x63, 0x11]
    src := 0x0501
    dst := 0x0303
    mem := [(0x0501, 0x01), (0x0502, 0x02), (0x0503, 0x03), (0x0504, 0x04)] }

theorem witness_AlignmentAndTailDoNotMatter : sA.Wf ∧ sA'.Wf ∧ sA.fault = false ∧ sA'.fault = false ∧
    sA.lifecycle = .active ∧ sA'.lifecycle = .active ∧ sA.cfg = sA'.cfg ∧ sA.acc = sA'.acc ∧ sA.cntLo = sA'.cntLo ∧
    sA.cntHi = sA'.cntHi ∧ slice 0 sA.valid sA.pend = slice 0 sA'.valid sA'.pend ∧ sA.InputSpanOk ∧ sA'.InputSpanOk ∧
    sA.input = sA'.input ∧ sA.DigestSpanOk ∧ sA'.DigestSpanOk :=
  ⟨sA_wf, by constructor <;> decide, rfl, rfl, rfl, rfl, rfl, rfl, rfl, rfl, by decide, sA_inputSpan.1,
    by unfold State.InputSpanOk; decide, by decide, sA_digestSpan.1, by unfold State.DigestSpanOk; decide⟩

theorem witness_HiddenStateIsHidden :
    SameToHost { sA with script := [.write 0xF000 32 3] }
      { sA with script := [.write 0xF000 32 3], acc := [9, 9], cntLo := 1, pend := [0, 0, 0, 0] } ∧
      ∃ t, step { sA with script := [.write 0xF000 32 3] } = .next t := by
  obtain ⟨t, h, -⟩ := exists_of_good (x := step { sA with script := [.write 0xF000 32 3] }) (P := fun _ => true)
    (by decide)
  exact ⟨⟨rfl, rfl, rfl, rfl, rfl, rfl, rfl, rfl, rfl, rfl⟩, t, h⟩

theorem witness_StatusRegister : sA.cfg.wf = true ∧
    { sA with script := [.write 0xF004 32 7] }.script = [.write (sA.cfg.base + 0x04) 32 7] ∧
    { sA with script := [.read 0xF004 32] }.script = [.read (sA.cfg.base + 0x04) 32] := by decide

theorem witness_CommandRegister : sA.cfg.wf = true ∧
    { sA with script := [.write 0xF000 32 1] }.script = [.write sA.cfg.base 32 1] ∧
    { sA with script := [.read 0xF000 32] }.script = [.read sA.cfg.base 32] := by decide

theorem witness_OperandRegisters : sA.Wf ∧ sA.cfg.wf = true ∧
    { sA with script := [.write 0xF008 64 (-1)] }.script = [.write (sA.cfg.base + 0x08) 64 (-1)] ∧
    { sA with script := [.write 0xF010 64 (-1)] }.script = [.write (sA.cfg.base + 0x10) 64 (-1)] ∧
    { sA with script := [.write 0xF018 64 (-1)] }.script = [.write (sA.cfg.base + 0x18) 64 (-1)] ∧
    { sA with script := [.read 0xF008 64] }.script = [.read (sA.cfg.base + 0x08) 64] ∧
    { sA with script := [.read 0xF010 64] }.script = [.read (sA.cfg.base + 0x10) 64] ∧
    { sA with script := [.read 0xF018 64] }.script = [.read (sA.cfg.base + 0x18) 64] ∧
    ∃ t, exec .init sA = .next t :=
  ⟨sA_wf, by decide, by decide, by decide, by decide, by decide, by decide, by decide, _, rfl⟩

theorem witness_OtherAccessesAreRefused : sA.cfg.wf = true ∧
    { sA with script := [.write 0xF008 32 0] }.script = [.write 0xF008 32 0] ∧
    { sA with script := [.read 0xF006 16] }.script = [.read 0xF006 16] ∧
    { sA with script := [.store 0xF000 1] }.script = [.store 0xF000 1] ∧ sA.cfg.base ≤ 0xF000 ∧
    { sA with script := [.load 0xF01F] }.script = [.load 0xF01F] ∧ 0xF01F < sA.cfg.base + 0x20 := by decide

theorem witness_HostMemory : sA.Wf ∧ ¬(sA.cfg.base ≤ 0xEFFF ∧ 0xEFFF < sA.cfg.base + 0x20) ∧
    ¬(sA.cfg.base ≤ 0xFFFF ∧ 0xFFFF < sA.cfg.base + 0x20) ∧ 0xFFFF < 2 ^ sA.cfg.AW ∧
    { sA with script := [.store 0xFFFF 1] }.script = [.store 0xFFFF 1] ∧
    ¬(sA.cfg.base ≤ 0x10000 ∧ 0x10000 < sA.cfg.base + 0x20) ∧ 2 ^ sA.cfg.AW ≤ 0x10000 ∧
    { sA with script := [.load 0x10000] }.script = [.load 0x10000] :=
  ⟨sA_wf, by decide, by decide, by decide, by decide, by decide, by decide, by decide⟩

theorem witness_ResetSetsState : sF.cfg.wf = true ∧ { sF with script := [.reset] }.script = [.reset] := by decide

theorem witness_ResetIsWellFormed : Config.toyA.wf = true ∧ Config.toyB.wf = true := by decide

theorem witness_StepKeepsWellFormed : { sA with script := [.write 0xF000 32 3] }.Wf ∧
    ∃ t, step { sA with script := [.write 0xF000 32 3] } = .next t :=
  ⟨by constructor <;> decide, witness_HiddenStateIsHidden.2⟩

/-- A step for each of the three ways on: an INIT, an UPDATE and another access. -/
theorem witness_StreamInvariantKept : sA.Wf ∧ (sA.lifecycle = .active → sA.fault = false → sA.Holds streamA) ∧
    good (step { sA with script := [.write 0xF000 32 1] }) (fun t => t.lifecycle == .active && !t.fault) = true ∧
    good (step { sA with script := [.write 0xF000 32 2] }) (fun t => t.lifecycle == .active && !t.fault) = true ∧
    good (step { sA with script := [.read 0xF004 32] }) (fun t => t.lifecycle == .active && !t.fault) = true :=
  ⟨sA_wf, fun _ _ => sA_holds, by decide, by decide, by decide⟩

/-- `sA`, with the Host about to hash four bytes in the two spans `(0x0100, 3)` and `(0x0103, 1)`. -/
def sP : State := { sA with script := streamProgram Config.toyA [(0x0100, 3), (0x0103, 1)] 0x0200 }

/-- The same bytes in one span, and another `dst`. -/
def sQ : State := { sA with script := streamProgram Config.toyA [(0x0100, 4)] 0x0300 }

theorem witness_StreamProgramHashes : sP.Wf ∧ sP.fault = false ∧
    sP.script = streamProgram sP.cfg [(0x0100, 3), (0x0103, 1)] 0x0200 ∧
    SpansOk sP.cfg [(0x0100, 3), (0x0103, 1)] ∧ (0x0200 : BitVec 64).toNat % 2 ^ sP.cfg.AW + sP.cfg.H ≤ 2 ^ sP.cfg.AW ∧
    ∀ k < sP.cfg.H, sP.cfg.writable.has ((0x0200 : BitVec 64).toNat % 2 ^ sP.cfg.AW + k) = true :=
  ⟨by constructor <;> decide, rfl, rfl, fun p hp => by
      simp only [List.mem_cons, List.not_mem_nil, or_false] at hp
      obtain rfl | rfl := hp <;> decide, by decide, by decide⟩

/-- Go on from a next state. -/
def andThen (x : Answer) (f : State → Answer) : Answer :=
  match x with
  | .next t => f t
  | .fault r => .fault r
  | .refused r => .refused r

/-- `k` steps, as a function. -/
def runs : Nat → State → Answer
  | 0 => .next
  | k + 1 => fun s => andThen (step s) (runs k)

theorem andThen_next {x : Answer} {f : State → Answer} {t : State} (h : andThen x f = .next t) :
    ∃ u, x = .next u ∧ f u = .next t := by
  cases x with
  | next u => exact ⟨u, rfl, h⟩
  | fault _ => cases h
  | refused _ => cases h

theorem runs_spec {k : Nat} {s t : State} (h : runs k s = .next t) : Runs k s t := by
  induction k generalizing s with
  | zero => exact (Host.Outcome.next.inj h).symm
  | succ k ih =>
    obtain ⟨u, hu, h⟩ := andThen_next (x := step s) (f := runs k) h
    exact ⟨u, hu, ih h⟩

theorem endsWell_of_runs {k : Nat} {s : State} (h : good (runs k s) (fun t => !t.fault) = true) :
    ∃ t, EndsWell k s t := by
  obtain ⟨t, h, ht⟩ := exists_of_good h
  exact ⟨t, runs_spec h, by simpa [State.Faulted] using ht⟩

theorem witness_ChunkingInvariance : sP.Wf ∧ sQ.Wf ∧ sP.cfg = sQ.cfg ∧ sP.fault = false ∧ sQ.fault = false ∧
    sP.script = streamProgram sP.cfg [(0x0100, 3), (0x0103, 1)] 0x0200 ∧
    sQ.script = streamProgram sQ.cfg [(0x0100, 4)] 0x0300 ∧
    spansBytes sP.cfg sP.mem [(0x0100, 3), (0x0103, 1)] = spansBytes sQ.cfg sQ.mem [(0x0100, 4)] ∧
    (∃ t, EndsWell sP.script.length sP t) ∧ ∃ t, EndsWell sQ.script.length sQ t :=
  ⟨by constructor <;> decide, by constructor <;> decide, rfl, rfl, rfl, rfl, rfl, by decide,
    endsWell_of_runs (by decide), endsWell_of_runs (by decide)⟩

end Sys2Proof.Tests
end

section
/-! SUPPORT. The configurations that have a machine (00_scope.md R10 to R20, R78): each check of `Config.wf` as the
condition of its rules, and the two obligations of that family. -/

namespace Sys2Proof

/-! ### Each check of a configuration says what its rules say -/

theorem isPowerOfTwo_iff {b : Nat} : isPowerOfTwo b = true ↔ ∃ k, b = 2 ^ k := by
  simp only [isPowerOfTwo, beq_iff_eq]
  constructor
  · exact fun h => ⟨b.log2, h⟩
  · rintro ⟨k, rfl⟩
    rw [Nat.log2_two_pow]

theorem Config.sizesWf_iff {c : Config} :
    c.sizesWf = true ↔ 1 ≤ c.W ∧ (∃ k, c.B = 2 ^ k) ∧ c.W ∣ c.B ∧ 2 * c.W ≤ c.B ∧ c.B ≤ 2 ^ c.wb ∧ c.W ∣ c.H ∧
      c.W ≤ c.H ∧ (c.offset = 0 ∨ c.offset = 1) := by
  simp only [Config.sizesWf, Bool.and_eq_true, decide_eq_true_eq, isPowerOfTwo_iff, Nat.dvd_iff_mod_eq_zero,
    Nat.le_one_iff_eq_zero_or_eq_one, and_assoc]

theorem Config.ivWf_iff {c : Config} :
    c.ivWf = true ↔ c.iv.length = c.nh ∧ ∀ w ∈ c.iv, w < 2 ^ c.wb := by
  simp only [Config.ivWf, Bool.and_eq_true, decide_eq_true_eq, List.all_eq_true]

theorem Config.widthsWf_iff {c : Config} :
    c.widthsWf = true ↔ 1 ≤ c.AW ∧ c.AW ≤ 64 ∧ 1 ≤ c.LW ∧ c.LW ≤ 64 := by
  simp only [Config.widthsWf, Bool.and_eq_true, decide_eq_true_eq, and_assoc]

/-- In a canonical set, a bound on the ends of the ranges is a bound on the addresses: the last address of a range is in
the set. -/
theorem AddrSet.hi_le_iff {S : AddrSet} (hS : S.canonical = true) {n : Nat} :
    (∀ r ∈ S, r.hi ≤ n) ↔ ∀ a, S.has a = true → a < n := by
  constructor
  · intro h a ha
    obtain ⟨r, hr, -, hhi⟩ := AddrSet.has_iff.1 ha
    exact hhi.trans_le (h r hr)
  · intro h r hr
    have hne := AddrSet.lo_lt_hi hS hr
    have := h (r.hi - 1) (AddrSet.has_iff.2 ⟨r, hr, by omega, by omega⟩)
    omega

/-- In a canonical set, ranges that end before `[b, b + n)` or start after it are a set that does not meet it: the
greater of `b` and a range's first address would be common to both. -/
theorem AddrSet.disjoint_iff {S : AddrSet} (hS : S.canonical = true) {b n : Nat} (hn : 0 < n) :
    (∀ r ∈ S, r.hi ≤ b ∨ b + n ≤ r.lo) ↔ ∀ a, S.has a = true → ¬(b ≤ a ∧ a < b + n) := by
  constructor
  · intro h a ha
    obtain ⟨r, hr, hlo, hhi⟩ := AddrSet.has_iff.1 ha
    have := h r hr
    omega
  · intro h r hr
    by_contra hc
    have hne := AddrSet.lo_lt_hi hS hr
    have hmem : S.has (max b r.lo) = true := AddrSet.has_iff.2 ⟨r, hr, by omega, by omega⟩
    exact h _ hmem (by omega)

theorem Config.setWf_iff {c : Config} {S : AddrSet} :
    c.setWf S = true ↔ S.canonical = true ∧
      ∀ a, S.has a = true → a < 2 ^ c.AW ∧ ¬(c.base ≤ a ∧ a < c.base + 0x20) := by
  simp only [Config.setWf, Bool.and_eq_true, List.all_eq_true, decide_eq_true_eq, and_assoc]
  refine and_congr_right fun hS => ?_
  rw [AddrSet.hi_le_iff hS, AddrSet.disjoint_iff hS (by decide), ← forall₂_and]

end Sys2Proof

namespace Sys2Proof.Machine

/-- Settles O7: each check of `Config.wf` is the condition of its rules, and the last one is made of both sets. -/
theorem acceptedConfigurations : Obligations.AcceptedConfigurations := by
  intro c
  simp only [Config.wf, Bool.and_eq_true, Config.sizesWf_iff, Config.ivWf_iff, Config.widthsWf_iff, Config.setWf_iff,
    Config.wb, Config.nh, List.forall_mem_cons, List.not_mem_nil, false_imp_iff, implies_true, and_true, and_assoc]

/-! ### A configuration without a machine -/

/-- A configuration that is not accepted is refused at every step (R20). -/
theorem step_of_not_wf {s : State} (h : s.cfg.wf ≠ true) : step s = .refused .configuration :=
  if_neg h

/-- No command changes the configuration (R20). -/
theorem exec_keeps_cfg {i : Instr} {s t : State} (h : exec i s = .next t) : t.cfg = s.cfg := by
  rcases exec_cases h with ⟨-, rfl⟩ | ⟨-, ⟨k, -, -, rfl⟩ | ⟨-, rfl⟩ | ⟨-, -, -, rfl⟩ | ⟨-, -, -, rfl⟩⟩
  · rfl
  · exact State.raiseFault_cfg s k
  · rw [State.forgetTail_cfg, State.beginStream_cfg]
  · rw [State.forgetTail_cfg, State.append_cfg]
  · rw [State.consume_cfg, State.writeDigest_cfg]

/-- Settles O6: an accepted configuration (O7) breaks none of the constraints, so one that breaks any is refused. -/
theorem brokenConfigurationHasNoMachine : Obligations.BrokenConfigurationHasNoMachine := by
  refine ⟨fun s hbroken => step_of_not_wf fun hwf => ?_, fun i s t => exec_keeps_cfg⟩
  obtain ⟨hW, hpow, hWB, h2W, hB, hWH, hH, hoff, -, -, hAW, hAW', hLW, hLW', hsets⟩ :=
    (acceptedConfigurations s.cfg).1 hwf
  obtain ⟨-, hread⟩ := hsets s.cfg.readable (by simp)
  obtain ⟨-, hwrite⟩ := hsets s.cfg.writable (by simp)
  rcases hbroken with h | h | h | h | h | h | h | h | h | h | ⟨a, hlo, hhi, h | h⟩
  · exact h hpow
  · exact h hWB
  · omega
  · exact hB.not_gt h
  · exact h hWH
  · omega
  · omega
  · omega
  · omega
  · omega
  · exact (hread a h).2 ⟨hlo, hhi⟩
  · exact (hwrite a h).2 ⟨hlo, hhi⟩

end Sys2Proof.Machine
end

section
/-! SUPPORT. The invariant of the machine and the stream a state holds (10_state.md R31 to R37, R48, R49): what each
update of the state and each step does to them, and the obligations about them. -/

namespace Sys2Proof.Machine

/-! ### The invariant under each update of the state -/

theorem State.Wf.writeSrc {s : State} (h : s.Wf) (v : BitVec 64) : (s.writeSrc v).Wf :=
  { h with src := lowBits_lt _ _ }

theorem State.Wf.writeLen {s : State} (h : s.Wf) (v : BitVec 64) : (s.writeLen v).Wf :=
  { h with len := lowBits_lt _ _ }

theorem State.Wf.writeDst {s : State} (h : s.Wf) (v : BitVec 64) : (s.writeDst v).Wf :=
  { h with dst := lowBits_lt _ _ }

theorem State.Wf.returnData {s : State} (h : s.Wf) (v : BitVec 64) : (s.returnData v).Wf :=
  { h with }

/-- The Host's byte goes to an address that exists, and a write keeps the canonical form (R60). -/
theorem State.Wf.storeByte {s : State} (h : s.Wf) {a : Nat} (ha : a < 2 ^ s.cfg.AW) (b : Byte) :
    (s.storeByte a b).Wf :=
  { h with
    memForm := Memory.write_wf a b h.memForm
    memAddrs := fun e he => (Memory.mem_write he).elim (fun hea => hea.trans_lt ha) (h.memAddrs e) }

theorem State.Wf.assertReset {s : State} (h : s.Wf) : s.assertReset.Wf :=
  { h.forget with
    src := Nat.two_pow_pos _
    len := Nat.two_pow_pos _
    dst := Nat.two_pow_pos _
    cause := by simp }

theorem State.Wf.beginStream {s : State} (h : s.Wf) : s.beginStream.Wf :=
  { h with
    accLength := (wf_iv h.cfg).1
    accWords := (wf_iv h.cfg).2
    cntLo := Nat.two_pow_pos _
    cntHi := Nat.two_pow_pos _ }

/-- UPDATE leaves `B` bytes pending and an accumulator, because what it does to them is `F` (R117 to R123). -/
theorem State.Wf.append {s : State} (h : s.Wf) (I : List Byte) : (s.append I).Wf := by
  obtain ⟨hacc, hpend, -⟩ := absorb_spec (wf_sizes h.cfg).B_pos s.acc I (valid_lt h) h.pendLength
  obtain ⟨hlength, hwords⟩ := compress_shape (S := s.pend.take s.valid ++ I) h.accLength h.accWords
  exact { h with
    pendLength := hpend
    accLength := (congrArg List.length hacc).trans hlength
    accWords := fun w hw => hwords w (hacc ▸ hw)
    cntLo := counterAdd_lo_lt _ _ s.cntHi _
    cntHi := counterAdd_hi_lt _ s.cntLo _ _ }

/-- The digest is `H` bytes, so a digest span that ends within the address space is all addresses that exist (R60,
R63). -/
theorem State.Wf.writeDigest {s : State} (h : s.Wf) (hspan : s.dstOperand + s.cfg.H ≤ 2 ^ s.cfg.AW) :
    s.writeDigest.Wf :=
  { h with
    memForm := Memory.writeBytes_wf _ _ h.memForm
    memAddrs := fun e he => by
      rcases Memory.mem_writeBytes he with ⟨-, hlt⟩ | he
      · rw [length_digestBytes (wf_sizes h.cfg)] at hlt
        exact hlt.trans_le hspan
      · exact h.memAddrs e he }

theorem State.Wf.consume {s : State} (h : s.Wf) : s.consume.Wf :=
  { h.forget with }

theorem State.Wf.powerOn {c : Config} (h : c.wf = true) : (State.powerOn c).Wf where
  cfg := h
  pendLength := length_freePend ..
  accLength := length_freeAcc ..
  accWords := fun _ => freeAcc_lt
  cntLo := freeCntLo_lt ..
  cntHi := freeCntHi_lt ..
  src := Nat.two_pow_pos _
  len := Nat.two_pow_pos _
  dst := Nat.two_pow_pos _
  memForm := rfl
  memAddrs := by simp [State.powerOn]
  cause := by simp [State.powerOn]

/-! ### What a CMD write and a step do to the engine -/

/-- Everything a `CMD` write can do, down to the command that its word stands for: nothing while `FAULT = 1`; else a
fault entry, or the effect of the command (R87). -/
theorem commandWrite_effect {w : BitVec 32} {s t : State} (h : commandWrite w s = .next t) :
    (s.fault = true ∧ t = s) ∨
      (s.fault = false ∧
        ((∃ k, k ≠ Cause.none ∧ t = s.raiseFault k) ∨
          (decode w = .ok .init ∧ t = s.beginStream.forgetTail) ∨
          (decode w = .ok .update ∧ s.lifecycle = .active ∧ t = (s.append s.input).forgetTail) ∨
          (decode w = .ok .finalize ∧ s.lifecycle = .active ∧ digestSpanValid s.cfg s.dstOperand = true ∧
            t = s.writeDigest.consume))) := by
  rcases commandWrite_cases h with hfaulted | ⟨hf, ⟨e, -, rfl⟩ | ⟨i, hd, hexec⟩⟩
  · exact .inl hfaulted
  · exact .inr ⟨hf, .inl ⟨_, by decide, rfl⟩⟩
  · refine .inr ⟨hf, ?_⟩
    rcases exec_cases hexec with
      ⟨hf', -⟩ | ⟨-, ⟨k, hk, -, ht⟩ | ⟨rfl, ht⟩ | ⟨rfl, ha, -, ht⟩ | ⟨rfl, ha, hspan, ht⟩⟩
    · simp [hf] at hf'
    · exact .inl ⟨k, hk, ht⟩
    · exact .inr (.inl ⟨hd, ht⟩)
    · exact .inr (.inr (.inl ⟨hd, ha, ht⟩))
    · exact .inr (.inr (.inr ⟨hd, ha, hspan, ht⟩))

/-- The engine's registers that a stream lives in are the same in both states: the configuration, `PEND`, `ACC`, the
counter, `LIFECYCLE` and `FAULT`. -/
structure SameEngine (s t : State) : Prop where
  cfg : t.cfg = s.cfg
  pend : t.pend = s.pend
  acc : t.acc = s.acc
  cntLo : t.cntLo = s.cntLo
  cntHi : t.cntHi = s.cntHi
  lifecycle : t.lifecycle = s.lifecycle
  fault : t.fault = s.fault

theorem State.Holds.of_sameEngine {s t : State} {S : List Byte} (h : s.Holds S) (hst : SameEngine s t) : t.Holds S :=
  h.of_eq hst.cfg hst.pend hst.acc hst.cntLo hst.cntHi hst.lifecycle hst.fault

/-- Only `CMD` stands at offset 0 (R38). -/
theorem Reg.eq_cmd_of_base_eq {r : Reg} {b : Nat} (h : b + r.offset = b) : r = .cmd := by
  cases r <;> simp [Reg.offset] at h ⊢

/-- What a step can do to the engine's registers: a `CMD` write does what its word says, reset resets, and any other
access leaves them alone. -/
theorem step_engine_cases {s t : State} (h : step s = .next t) :
    (∃ v rest, s.script = .write s.cfg.base 32 v :: rest ∧
        commandWrite (v.setWidth 32) (s.withScript rest) = .next t) ∨
      (∃ rest, s.script = .reset :: rest ∧ t = (s.withScript rest).assertReset) ∨
      (SameEngine s t ∧ ∀ v, s.script.head? ≠ some (.write s.cfg.base 32 v)) := by
  obtain ⟨-, ⟨hs, rfl⟩ | ⟨x, rest, hs, hx⟩⟩ := step_cases h
  · exact .inr (.inr ⟨⟨rfl, rfl, rfl, rfl, rfl, rfl, rfl⟩, by simp [hs]⟩)
  · rcases hostAccess_cases hx with
      ⟨v, rfl, hcmd⟩ | ⟨r, v, hr, rfl, ht⟩ | ⟨v, hread, rfl⟩ | ⟨a, b, rfl, -, rfl⟩ | ⟨rfl, rfl⟩
    · exact .inl ⟨v, rest, hs, hcmd⟩
    · refine .inr (.inr ⟨?_, fun v' hv' => hr ?_⟩)
      · rcases ht with rfl | rfl | rfl | rfl <;> exact ⟨rfl, rfl, rfl, rfl, rfl, rfl, rfl⟩
      · simp only [hs, List.head?_cons, Option.some.injEq, HostAccess.write.injEq, State.withScript_cfg] at hv'
        exact Reg.eq_cmd_of_base_eq hv'.1
    · refine .inr (.inr ⟨⟨rfl, rfl, rfl, rfl, rfl, rfl, rfl⟩, ?_⟩)
      rcases hread with ⟨a, w, rfl⟩ | ⟨a, rfl⟩ <;> simp [hs]
    · exact .inr (.inr ⟨⟨rfl, rfl, rfl, rfl, rfl, rfl, rfl⟩, by simp [hs]⟩)
    · exact .inr (.inl ⟨rest, hs, rfl⟩)

/-! ### Every step keeps the invariant -/

theorem commandWrite_keeps_wf {w : BitVec 32} {s t : State} (h : s.Wf) (hw : commandWrite w s = .next t) : t.Wf := by
  rcases commandWrite_effect hw with ⟨-, rfl⟩ | ⟨-, ⟨k, hk, rfl⟩ | ⟨-, rfl⟩ | ⟨-, -, rfl⟩ | ⟨-, -, hspan, rfl⟩⟩
  · exact h
  · exact h.raiseFault hk
  · exact h.beginStream.forgetTail
  · exact (h.append s.input).forgetTail
  · exact (h.writeDigest ((digestSpanValid_iff h.cfg).1 hspan).1).consume

theorem hostAccess_keeps_wf {x : HostAccess} {s t : State} (h : s.Wf) (hx : hostAccess x s = .next t) : t.Wf := by
  rcases hostAccess_cases hx with
    ⟨v, -, hcmd⟩ | ⟨r, v, -, -, rfl | rfl | rfl | rfl⟩ | ⟨v, -, rfl⟩ | ⟨a, b, -, ha, rfl⟩ | ⟨-, rfl⟩
  · exact commandWrite_keeps_wf h hcmd
  · exact h
  · exact h.writeSrc v
  · exact h.writeLen v
  · exact h.writeDst v
  · exact h.returnData v
  · exact h.storeByte ha b
  · exact h.assertReset

/-- Settles O50: the step is an access at the state without it, and each access is made of updates that keep the
invariant. -/
theorem stepKeepsWellFormed : Obligations.StepKeepsWellFormed := by
  intro s t h hstep
  obtain ⟨-, ⟨-, rfl⟩ | ⟨x, rest, -, hx⟩⟩ := step_cases hstep
  · exact h
  · exact hostAccess_keeps_wf (h.withScript rest) hx

/-- Settles O49: the power-on state of an accepted configuration meets every clause, and TOY-A is accepted. -/
theorem resetIsWellFormed : Obligations.ResetIsWellFormed :=
  ⟨State.Wf.powerOn (by decide), fun _ => State.Wf.powerOn⟩

/-! ### The stream a state holds -/

/-- The counter law: `CNT' = (CNT + len) mod 2^(2*wb)` (R113, R115). The low words carry exactly when their sum reaches
`2^wb`. -/
theorem counterAdd_cnt (c : Config) {lo : Nat} (hi len : Nat) (hlo : lo < 2 ^ c.wb) :
    (counterAdd c lo hi len).2 * 2 ^ c.wb + (counterAdd c lo hi len).1
      = (hi * 2 ^ c.wb + lo + len) % 2 ^ (2 * c.wb) := by
  simp only [counterAdd, safeShr]
  rw [show 2 ^ (2 * c.wb) = 2 ^ c.wb * 2 ^ c.wb by rw [Nat.two_mul, Nat.pow_add]]
  have hM : 0 < 2 ^ c.wb := Nat.two_pow_pos _
  generalize 2 ^ c.wb = M at *
  have hcarry : (lo + len) / M = carryOf ((lo + len % M) % M) lo + len / M := by
    have hr := Nat.mod_lt len hM
    have hsplit : lo + len = lo + len % M + M * (len / M) := by rw [Nat.add_assoc, Nat.mod_add_div]
    rw [hsplit, Nat.add_mul_div_left _ _ hM, carryOf]
    congr 1
    by_cases hwrap : lo + len % M < M
    · rw [Nat.div_eq_of_lt hwrap, Nat.mod_eq_of_lt hwrap, if_neg (Nat.not_lt.2 (Nat.le_add_right ..))]
    · have hquot : (lo + len % M) / M = 1 := Nat.div_eq_of_lt_le (by omega) (by omega)
      have hlow : (lo + len % M) % M < lo := by
        have hmod := Nat.mod_add_div (lo + len % M) M
        rw [hquot] at hmod
        omega
      rw [hquot, if_pos hlow]
  have hquot : (hi * M + lo + len) / M = hi + (lo + len) / M := by
    rw [Nat.add_assoc, Nat.add_comm, Nat.add_mul_div_right _ _ hM, Nat.add_comm]
  rw [Nat.mod_mul, hquot, hcarry, Nat.add_assoc (hi * M), Nat.mul_add_mod', Nat.add_mod_mod, Nat.add_mod_mod,
    Nat.add_assoc, Nat.add_comm, Nat.mul_comm]

/-- The clauses on `PEND` and `ACC` of R49, as one split of the stream: whole blocks, folded into the accumulator, and
then the valid pending bytes. -/
theorem State.Holds.of_split {s : State} (h : s.Wf) (hactive : s.lifecycle = .active) (hrunning : s.fault = false)
    {P : List Byte} {k : Nat} (hP : P.length = k * s.cfg.B)
    (hcount : s.cnt = (P.length + s.valid) % 2 ^ (2 * s.cfg.wb)) (hfold : s.acc = compress s.cfg s.cfg.iv P) :
    s.Holds (P ++ s.pend.take s.valid) := by
  have hv := valid_lt h
  have hlen : (s.pend.take s.valid).length = s.valid := by rw [List.length_take, h.pendLength]; omega
  refine ⟨hactive, hrunning, ?_, ?_, ?_, ?_⟩ <;> rw [List.length_append, hlen]
  · exact hcount
  · rw [hP, Nat.mul_add_mod', Nat.mod_eq_of_lt hv]
  · simp [slice, hlen]
  · simpa using hfold

theorem State.Holds.split {s : State} {S : List Byte} (h : s.Holds S) :
    ∃ P k, S = P ++ s.pend.take s.valid ∧ P.length = k * s.cfg.B ∧ s.acc = compress s.cfg s.cfg.iv P := by
  have hdiv := Nat.div_add_mod' S.length s.cfg.B
  rw [← h.fill] at hdiv
  refine ⟨S.take (S.length - s.valid), S.length / s.cfg.B, ?_, ?_, ?_⟩
  · have hpend := h.pending
    rw [slice_zero, slice, List.take_of_length_le (l := S.drop _) (by simp)] at hpend
    rw [hpend, List.take_append_drop]
  · rw [List.length_take]; omega
  · rw [← slice_zero]; exact h.folded

theorem State.Holds.beginStream {s : State} (h : s.Wf) (hf : s.fault = false) : s.beginStream.forgetTail.Holds [] :=
  .of_split (P := []) (k := 0) h.beginStream.forgetTail rfl hf (by simp) (by simp [State.cnt])
    (compress_short (S := []) (wf_sizes h.cfg).B_pos).symm

/-- UPDATE appends its input to the stream: the whole blocks of the pending bytes and the input join those folded
before, and the bytes after them are pending (R123). -/
theorem State.Holds.append {s : State} {S : List Byte} (h : s.Wf) (hS : s.Holds S) :
    (s.append s.input).forgetTail.Holds (S ++ s.input) := by
  have hB := (wf_sizes h.cfg).B_pos
  have hv := valid_lt h
  obtain ⟨P, k, hsplit, hP, hfold⟩ := hS.split
  obtain ⟨hacc, hvalid, hpend⟩ := append_spec h
  have hpl := h.pendLength
  generalize hQ : s.pend.take s.valid ++ s.input = Q at hacc hpend
  generalize hm : (s.valid + s.lenOperand) / s.cfg.B = m at hpend
  have hQlen : Q.length = s.valid + s.lenOperand := by
    rw [← hQ, List.length_append, List.length_take, length_input]; omega
  have hmB : m * s.cfg.B + (s.valid + s.lenOperand) % s.cfg.B = Q.length := by
    rw [hQlen, ← hm, Nat.div_add_mod']
  have hX : (Q.take (m * s.cfg.B)).length = m * s.cfg.B := by rw [List.length_take]; omega
  have hY : (Q.drop (m * s.cfg.B)).length < s.cfg.B := by
    have := Nat.mod_lt (s.valid + s.lenOperand) hB
    rw [List.length_drop]; omega
  have hlen : S.length = P.length + s.valid := by
    rw [hsplit, List.length_append, List.length_take]; omega
  have hcut : S ++ s.input = (P ++ Q.take (m * s.cfg.B)) ++
      (s.append s.input).forgetTail.pend.take (s.append s.input).forgetTail.valid := by
    rw [hpend, List.append_assoc, List.take_append_drop, hsplit, List.append_assoc, hQ]
  rw [hcut]
  refine .of_split (k := k + m) (h.append _).forgetTail hS.active hS.running ?_ ?_ ?_
  · rw [List.length_append, hP, hX, State.forgetTail_cfg, State.append_cfg, Nat.add_mul]
  · have hcnt := counterAdd_cnt s.cfg s.cntHi s.lenOperand h.cntLo
    rw [← State.cnt, hS.count, Nat.mod_add_mod] at hcnt
    rw [List.length_append, hX, hvalid, Nat.add_assoc, hmB, hQlen, ← Nat.add_assoc, ← hlen]
    simpa [State.cnt] using hcnt
  · calc (s.append s.input).forgetTail.acc = compress s.cfg s.acc (Q.take (m * s.cfg.B) ++ Q.drop (m * s.cfg.B)) := by
          rw [hacc, List.take_append_drop]
      _ = compress s.cfg s.acc (Q.take (m * s.cfg.B)) := compress_tail hB hX hY
      _ = compress s.cfg s.cfg.iv (P ++ Q.take (m * s.cfg.B)) := by rw [hfold, compress_append hB hP]

/-- Settles O51: a `CMD` write that ends `ACTIVE` with `FAULT = 0` is an INIT or an UPDATE, and any other access but
reset leaves the engine's registers alone. -/
theorem streamInvariantKept : Obligations.StreamInvariantKept := by
  intro s t S h hS hstep hactive hrunning
  rcases step_engine_cases hstep with ⟨v, rest, hs, hcmd⟩ | ⟨rest, -, rfl⟩ | ⟨hst, hcmd⟩
  · rcases commandWrite_effect hcmd with
      ⟨hf, rfl⟩ | ⟨hf, ⟨k, -, rfl⟩ | ⟨hd, rfl⟩ | ⟨hd, ha, rfl⟩ | ⟨-, -, -, rfl⟩⟩
    · exact absurd (hf.symm.trans hrunning) (by decide)
    · simp at hrunning
    · exact .inl ⟨v, by simp [hs], hd, .beginStream (h.withScript rest) hf⟩
    · have hS' : (s.withScript rest).Holds S := (hS ha hf).of_eq rfl rfl rfl rfl rfl rfl rfl
      exact .inr (.inl ⟨v, by simp [hs], hd, hS'.append (h.withScript rest)⟩)
    · simp at hactive
  · simp at hactive
  · have ha := hst.lifecycle ▸ hactive
    have hf := hst.fault ▸ hrunning
    exact .inr (.inr ⟨ha, hf, (hS ha hf).of_sameEngine hst, fun v hv => absurd hv (hcmd v)⟩)

/-- Settles O13: `B` divides `2^wb`, so reducing modulo `2^wb` first does not change the remainder modulo `B`. -/
theorem fillLevelSurvivesWrap : Obligations.FillLevelSurvivesWrap := by
  refine fun s h => ⟨rfl, Nat.le_sub_one_of_lt (valid_lt h), fun N hN => ?_⟩
  rw [State.valid, hN, Nat.mod_mod_of_dvd _ (wf_sizes h.cfg).B_dvd]

/-- Settles O39: reset, and an INIT or a FINALIZE that takes effect, are the only ones that write `LIFECYCLE`. -/
theorem lifecycleMoves : Obligations.LifecycleMoves := by
  intro s t hstep hmove
  rcases step_engine_cases hstep with ⟨v, rest, hs, hcmd⟩ | ⟨rest, hs, rfl⟩ | ⟨hst, -⟩
  · refine .inr ⟨v, by simp [hs], ?_⟩
    rcases commandWrite_effect hcmd with
      ⟨-, rfl⟩ | ⟨hf, ⟨k, -, rfl⟩ | ⟨hd, rfl⟩ | ⟨-, -, rfl⟩ | ⟨hd, ha, -, rfl⟩⟩
    · exact absurd rfl hmove
    · exact absurd rfl hmove
    · exact ⟨hf, hf, .inl ⟨rfl, hd⟩⟩
    · exact absurd rfl hmove
    · exact ⟨hf, hf, .inr ⟨rfl, ha, hd⟩⟩
  · exact .inl ⟨rfl, by simp [hs]⟩
  · exact absurd hst.lifecycle hmove

end Sys2Proof.Machine
end

section
/-! SUPPORT. The interface registers (10_state.md R38 to R44) and the state at power-on (R48): what an access to a
register does, when it is refused, and the obligations about them. -/

namespace Sys2Proof.Machine

/-! ### Full-width reads, and the accesses that R44 allows -/

/-- What a Host read of a register returns (R39 to R43). -/
def State.readValue (s : State) : Reg → BitVec 64
  | .cmd => 0
  | .status => s.status.setWidth 64
  | .src => lowBits s.cfg.AW s.src
  | .len => lowBits s.cfg.LW s.len
  | .dst => lowBits s.cfg.AW s.dst

theorem hostRead_eq (a w : Nat) (s : State) :
    hostRead a w s = match regAt s.cfg a w with
      | some r => .next (s.returnData (s.readValue r))
      | none => .refused .interfaceAccess := by
  unfold hostRead
  cases regAt s.cfg a w with
  | none => rfl
  | some r => cases r <;> rfl

/-- A full-width read of a register, as a step (R39 to R44). -/
theorem step_get {s : State} {r : Reg} (hc : s.cfg.wf = true) {rest : List HostAccess}
    (hs : s.script = r.get s.cfg :: rest) : step s = .next ((s.withScript rest).returnData (s.readValue r)) := by
  have hr : regAt (s.withScript rest).cfg (s.cfg.base + r.offset) r.width = some r := regAt_eq_some.2 ⟨rfl, rfl⟩
  rw [step_of_script hc hs, Reg.get, hostAccess, hostRead_eq, hr]
  cases r <;> rfl

theorem exec_answers (i : Instr) (s : State) : ∃ t, exec i s = .next t := by
  cases hf : s.fault with
  | true => exact ⟨s, by cases i <;> exact unlessFaulted_faulted hf _⟩
  | false =>
    cases i with
    | init => exact ⟨_, execInit_running hf⟩
    | update => rcases execUpdate_cases hf with ⟨-, h⟩ | ⟨-, -, -, h⟩ | ⟨-, -, h⟩ <;> exact ⟨_, h⟩
    | finalize => rcases execFinalize_cases hf with ⟨-, h⟩ | ⟨-, -, h⟩ | ⟨-, -, h⟩ <;> exact ⟨_, h⟩

/-- A `CMD` write is never refused (R87). -/
theorem commandWrite_answers (w : BitVec 32) (s : State) : ∃ t, commandWrite w s = .next t := by
  cases hf : s.fault with
  | true => exact ⟨s, unlessFaulted_faulted hf _⟩
  | false =>
    rw [commandWrite, unlessFaulted_running hf]
    cases decode w with
    | error e => exact ⟨_, rfl⟩
    | ok i => exact exec_answers i s

/-- A register write is refused exactly when it reaches no register (R44). -/
theorem hostWrite_refused_iff {a w : Nat} {v : BitVec 64} {s : State} :
    hostWrite a w v s = .refused .interfaceAccess ↔ regAt s.cfg a w = none := by
  unfold hostWrite
  cases regAt s.cfg a w with
  | none => simp
  | some r =>
    cases r with
    | cmd =>
      obtain ⟨t, ht⟩ := commandWrite_answers (v.setWidth 32) s
      simp [ht]
    | status | src | len | dst => simp

/-- A register read is refused exactly when it reaches no register (R44). -/
theorem hostRead_refused_iff {a w : Nat} {s : State} :
    hostRead a w s = .refused .interfaceAccess ↔ regAt s.cfg a w = none := by
  rw [hostRead_eq]
  cases regAt s.cfg a w <;> simp

/-- An access reaches no register exactly when it is at no register's offset with that register's width (R38, R44). -/
theorem regAt_eq_none_iff {c : Config} {a w : Nat} :
    regAt c a w = none ↔
      ¬((a = c.base ∧ w = 32) ∨ (a = c.base + 0x04 ∧ w = 32) ∨ (a = c.base + 0x08 ∧ w = 64) ∨
        (a = c.base + 0x10 ∧ w = 64) ∨ (a = c.base + 0x18 ∧ w = 64)) := by
  simp only [regAt, List.find?_eq_none, List.forall_mem_cons, decide_eq_true_iff, List.not_mem_nil, false_imp_iff,
    implies_true, and_true, not_or]
  rfl

theorem inWindow_iff {c : Config} {a : Nat} : inWindow c a = true ↔ c.base ≤ a ∧ a < c.base + 0x20 :=
  decide_eq_true_iff

/-- Settles O45: a register access is refused when it reaches no register, and a byte access when it is in the
window. -/
theorem otherAccessesAreRefused : Obligations.OtherAccessesAreRefused := by
  refine fun s rest hc => ⟨fun a w v hs => ?_, fun a w hs => ?_, fun a b hs hlo hhi => ?_, fun a hs hlo hhi => ?_⟩ <;>
    rw [step_of_script hc hs, hostAccess]
  · exact hostWrite_refused_iff.trans regAt_eq_none_iff
  · exact hostRead_refused_iff.trans regAt_eq_none_iff
  · exact if_pos (inWindow_iff.2 ⟨hlo, hhi⟩)
  · exact if_pos (inWindow_iff.2 ⟨hlo, hhi⟩)

/-! ### Each register -/

/-- Settles O43: the full-width write and read of a register, at `CMD`. -/
theorem commandRegister : Obligations.CommandRegister :=
  fun _ _ hc => ⟨fun _ hs => step_put (r := .cmd) hc hs, fun hs => step_get (r := .cmd) hc hs⟩

/-- A register that holds a value of `n` bits reads back whole (R41 to R43). -/
theorem lowBits_of_lt {n : Nat} {v : BitVec 64} (h : v.toNat < 2 ^ n) : lowBits n v = v := by
  rw [lowBits, Nat.mod_eq_of_lt h, BitVec.ofNat_toNat, BitVec.setWidth_eq]

/-- The bits above the low `n` are 0 (R41 to R43). -/
theorem ushiftRight_eq_zero_of_lt {n : Nat} {v : BitVec 64} (h : v.toNat < 2 ^ n) : v >>> n = 0 := by
  apply BitVec.eq_of_toNat_eq
  rw [BitVec.toNat_ushiftRight, Nat.shiftRight_eq_div_pow, Nat.div_eq_of_lt h]
  rfl

/-- No command writes an operand register (R41 to R43). -/
theorem exec_keeps_operands {i : Instr} {s t : State} (h : exec i s = .next t) :
    t.src = s.src ∧ t.len = s.len ∧ t.dst = s.dst := by
  rcases exec_cases h with ⟨-, rfl⟩ | ⟨-, ⟨k, -, -, rfl⟩ | ⟨-, rfl⟩ | ⟨-, -, -, rfl⟩ | ⟨-, -, -, rfl⟩⟩ <;>
    exact ⟨rfl, rfl, rfl⟩

/-- Settles O44: a read gives the low bits of the register, which are all of it because every register holds a value of
its width. -/
theorem operandRegisters : Obligations.OperandRegisters := by
  refine ⟨fun s rest v hc => ⟨step_put (r := .src) hc, step_put (r := .len) hc, step_put (r := .dst) hc⟩,
    fun s rest h => ⟨fun hs => ?_, fun hs => ?_, fun hs => ?_, ushiftRight_eq_zero_of_lt h.src,
      ushiftRight_eq_zero_of_lt h.len, ushiftRight_eq_zero_of_lt h.dst⟩,
    fun i s t => exec_keeps_operands⟩
  · rw [step_get (r := .src) h.cfg hs, State.readValue, lowBits_of_lt h.src]; rfl
  · rw [step_get (r := .len) h.cfg hs, State.readValue, lowBits_of_lt h.len]; rfl
  · rw [step_get (r := .dst) h.cfg hs, State.readValue, lowBits_of_lt h.dst]; rfl

/-- The fields of `STATUS`, from bit 0 up (R40). -/
theorem status_fields (s : State) :
    s.status.extractLsb' 0 2 = s.lifecycle.code ∧ s.status.extractLsb' 2 1 = BitVec.ofBool s.fault ∧
      s.status.extractLsb' 3 1 = 0 ∧ s.status.extractLsb' 4 4 = s.cause.code ∧ s.status.extractLsb' 8 24 = 0 := by
  unfold State.status
  refine ⟨?_, ?_, ?_, ?_, ?_⟩
  · exact BitVec.extractLsb'_append_eq_right
  · rw [BitVec.extractLsb'_append_eq_of_le (by decide)]
    exact BitVec.extractLsb'_append_eq_right
  · rw [BitVec.extractLsb'_append_eq_of_le (by decide), BitVec.extractLsb'_append_eq_of_le (by decide)]
    exact BitVec.extractLsb'_append_eq_right
  · rw [BitVec.extractLsb'_append_eq_of_le (by decide), BitVec.extractLsb'_append_eq_of_le (by decide),
      BitVec.extractLsb'_append_eq_of_le (by decide)]
    exact BitVec.extractLsb'_append_eq_right
  · rw [BitVec.extractLsb'_append_eq_of_le (by decide), BitVec.extractLsb'_append_eq_of_le (by decide),
      BitVec.extractLsb'_append_eq_of_le (by decide)]
    exact BitVec.extractLsb'_append_eq_left

/-- Settles O42: the fields of `STATUS` are the codes of the three registers, and the codes are those of R40 and
R171. -/
theorem statusRegister : Obligations.StatusRegister := by
  refine ⟨fun s => ?_, fun s rest hc =>
    ⟨fun v hs => step_put (r := .status) hc hs, fun hs => step_get (r := .status) hc hs⟩⟩
  obtain ⟨hlc, hfault, hzero, hcause, hrest⟩ := status_fields s
  rw [hlc, hfault, hcause]
  refine ⟨?_, ?_, ?_, hzero, ?_, hrest⟩
  · cases s.lifecycle <;> rfl
  · cases s.lifecycle <;> decide
  · cases s.fault <;> rfl
  · cases s.cause <;> rfl

/-- `STATUS` reads 0 at power-on (R48). -/
theorem status_powerOn (c : Config) : (State.powerOn c).status = 0 := by
  simp only [State.status, State.powerOn]
  decide

/-- Settles O48: each register of the power-on state is written out, and the codes of all three status registers are
0. -/
theorem powerOnState : Obligations.PowerOnState :=
  ⟨fun c => ⟨rfl, rfl, rfl, rfl, rfl, rfl, status_powerOn c, rfl⟩, _, rfl⟩

end Sys2Proof.Machine
end

section
/-! SUPPORT. What the Host cannot see (10_state.md R46): two states that differ in hidden state alone go on to states
that do, but for the digest bytes of a FINALIZE. -/

namespace Sys2Proof.Machine

/-! ### What the Host cannot tell apart stays so -/

theorem SameToHost.withScript {s s' : State} (h : SameToHost s s') (rest : List HostAccess) :
    SameToHost (s.withScript rest) (s'.withScript rest) :=
  { h with script := rfl }

theorem SameToHost.raiseFault {s s' : State} (h : SameToHost s s') (k : Cause) :
    SameToHost (s.raiseFault k) (s'.raiseFault k) :=
  { h with fault := rfl, cause := rfl }

theorem SameToHost.returnData {s s' : State} (h : SameToHost s s') (v : BitVec 64) :
    SameToHost (s.returnData v) (s'.returnData v) :=
  { h with rdata := rfl }

theorem SameToHost.writeSrc {s s' : State} (h : SameToHost s s') (v : BitVec 64) :
    SameToHost (s.writeSrc v) (s'.writeSrc v) :=
  { h with src := by simp [h.cfg] }

theorem SameToHost.writeLen {s s' : State} (h : SameToHost s s') (v : BitVec 64) :
    SameToHost (s.writeLen v) (s'.writeLen v) :=
  { h with len := by simp [h.cfg] }

theorem SameToHost.writeDst {s s' : State} (h : SameToHost s s') (v : BitVec 64) :
    SameToHost (s.writeDst v) (s'.writeDst v) :=
  { h with dst := by simp [h.cfg] }

theorem SameToHost.storeByte {s s' : State} (h : SameToHost s s') (a : Nat) (b : Byte) :
    SameToHost (s.storeByte a b) (s'.storeByte a b) :=
  { h with mem := by simp [h.mem] }

theorem SameToHost.assertReset {s s' : State} (h : SameToHost s s') : SameToHost s.assertReset s'.assertReset :=
  { h with lifecycle := rfl, fault := rfl, cause := rfl, src := rfl, len := rfl, dst := rfl }

theorem SameToHost.beginStream {s s' : State} (h : SameToHost s s') : SameToHost s.beginStream s'.beginStream :=
  { h with lifecycle := rfl }

theorem SameToHost.forgetTail {s s' : State} (h : SameToHost s s') : SameToHost s.forgetTail s'.forgetTail :=
  { h with }

theorem SameToHost.append {s s' : State} (h : SameToHost s s') (I I' : List Byte) :
    SameToHost (s.append I) (s'.append I') :=
  { h with }

theorem SameToHost.status {s s' : State} (h : SameToHost s s') : s.status = s'.status := by
  rw [State.status, State.status, h.lifecycle, h.fault, h.cause]

theorem SameToHost.readValue {s s' : State} (h : SameToHost s s') (r : Reg) : s.readValue r = s'.readValue r := by
  cases r with
  | cmd => rfl
  | status => exact congrArg (BitVec.setWidth 64) h.status
  | src => rw [State.readValue, State.readValue, h.cfg, h.src]
  | len => rw [State.readValue, State.readValue, h.cfg, h.len]
  | dst => rw [State.readValue, State.readValue, h.cfg, h.dst]

theorem SameToHost.srcOperand {s s' : State} (h : SameToHost s s') : s.srcOperand = s'.srcOperand := by
  rw [State.srcOperand, State.srcOperand, h.cfg, h.src]

theorem SameToHost.lenOperand {s s' : State} (h : SameToHost s s') : s.lenOperand = s'.lenOperand := by
  rw [State.lenOperand, State.lenOperand, h.cfg, h.len]

theorem SameToHost.dstOperand {s s' : State} (h : SameToHost s s') : s.dstOperand = s'.dstOperand := by
  rw [State.dstOperand, State.dstOperand, h.cfg, h.dst]

/-- Two states the Host cannot tell apart by looking, but for the bytes of memory at the addresses of `D` (R46). -/
structure SameToHostBut (D : Nat → Prop) (t t' : State) : Prop where
  same : SameToHost t { t' with mem := t.mem }
  mem : ∀ a, t.mem.read a = t'.mem.read a ∨ D a

theorem SameToHost.but {t t' : State} (h : SameToHost t t') (D : Nat → Prop) : SameToHostBut D t t' where
  same := { h with mem := rfl }
  mem a := .inl (by rw [h.mem])

theorem SameToHostBut.mono {D E : Nat → Prop} {t t' : State} (h : SameToHostBut D t t') (hDE : ∀ a, D a → E a) :
    SameToHostBut E t t' :=
  ⟨h.same, fun a => (h.mem a).imp_right (hDE a)⟩

/-- The addresses of the digest span of a FINALIZE issued in `s` (R63). -/
def State.InDigestSpan (s : State) (a : Nat) : Prop := s.dstOperand ≤ a ∧ a < s.dstOperand + s.cfg.H

theorem SameToHost.finalized {s s' : State} (h : SameToHost s s') (hc : s.cfg.wf = true) :
    SameToHostBut s.InDigestSpan s.writeDigest.consume s'.writeDigest.consume where
  same := { h with lifecycle := rfl, mem := rfl }
  mem a := by
    have hlen := length_digestBytes (wf_sizes hc)
    by_cases ha : s.InDigestSpan a
    · exact .inr ha
    · left
      have hout : a < s.dstOperand ∨ s.dstOperand + s.cfg.H ≤ a := by
        unfold State.InDigestSpan at ha; omega
      simp only [State.consume_mem, State.writeDigest_mem, ← h.dstOperand, ← h.cfg, ← h.mem]
      rw [Memory.read_writeBytes_outside (by rwa [hlen]), Memory.read_writeBytes_outside (by rwa [hlen])]

/-! ### Each access leads to states the Host cannot tell apart -/

theorem execUpdate_sameToHost {s s' t : State} (h : SameToHost s s') (ht : execUpdate s = .next t) :
    ∃ t', execUpdate s' = .next t' ∧ SameToHost t t' := by
  unfold execUpdate State.unlessFaulted at ht ⊢
  rw [← h.fault, ← h.lifecycle, ← h.cfg, ← h.srcOperand, ← h.lenOperand]
  split_ifs at ht ⊢ <;> cases ht
  · exact ⟨_, rfl, h⟩
  · exact ⟨_, rfl, h.raiseFault _⟩
  · exact ⟨_, rfl, h.raiseFault _⟩
  · exact ⟨_, rfl, (h.append _ _).forgetTail⟩

theorem execFinalize_sameToHostBut {s s' t : State} (h : SameToHost s s') (hc : s.cfg.wf = true)
    (ht : execFinalize s = .next t) : ∃ t', execFinalize s' = .next t' ∧ SameToHostBut s.InDigestSpan t t' := by
  unfold execFinalize State.unlessFaulted at ht ⊢
  rw [← h.fault, ← h.lifecycle, ← h.cfg, ← h.dstOperand]
  split_ifs at ht ⊢ <;> cases ht
  · exact ⟨_, rfl, h.but _⟩
  · exact ⟨_, rfl, (h.raiseFault _).but _⟩
  · exact ⟨_, rfl, (h.raiseFault _).but _⟩
  · exact ⟨_, rfl, h.finalized hc⟩

theorem exec_sameToHostBut {i : Instr} {s s' t : State} (h : SameToHost s s') (hc : s.cfg.wf = true)
    (ht : exec i s = .next t) :
    ∃ t', exec i s' = .next t' ∧ SameToHostBut (fun a => s.InDigestSpan a ∧ i = .finalize) t t' := by
  cases i with
  | init =>
    unfold exec execInit State.unlessFaulted at ht ⊢
    rw [← h.fault]
    split_ifs at ht ⊢ <;> cases ht
    · exact ⟨_, rfl, h.but _⟩
    · exact ⟨_, rfl, h.beginStream.forgetTail.but _⟩
  | update =>
    obtain ⟨t', ht', hsame⟩ := execUpdate_sameToHost h ht
    exact ⟨t', ht', hsame.but _⟩
  | finalize =>
    obtain ⟨t', ht', hsame⟩ := execFinalize_sameToHostBut h hc ht
    exact ⟨t', ht', hsame.mono fun a ha => ⟨ha, rfl⟩⟩

theorem commandWrite_sameToHostBut {w : BitVec 32} {s s' t : State} (h : SameToHost s s') (hc : s.cfg.wf = true)
    (ht : commandWrite w s = .next t) :
    ∃ t', commandWrite w s' = .next t' ∧
      SameToHostBut (fun a => s.InDigestSpan a ∧ decode w = .ok .finalize) t t' := by
  unfold commandWrite State.unlessFaulted at ht ⊢
  rw [← h.fault]
  split_ifs at ht ⊢
  · cases ht
    exact ⟨_, rfl, h.but _⟩
  · cases hd : decode w with
    | error e =>
      rw [hd] at ht
      cases ht
      exact ⟨_, rfl, (h.raiseFault _).but _⟩
    | ok i =>
      rw [hd] at ht
      obtain ⟨t', ht', hsame⟩ := exec_sameToHostBut h hc ht
      exact ⟨t', ht', hsame.mono fun a ha => ⟨ha.1, by rw [ha.2]⟩⟩

/-- The bytes that the access `x` may write from hidden state: the digest span, when `x` is a `CMD` write of FINALIZE
(R46). -/
def DigestByte (s : State) (x : HostAccess) (a : Nat) : Prop :=
  s.InDigestSpan a ∧ ∃ v, x = .write s.cfg.base 32 v ∧ decode (v.setWidth 32) = .ok .finalize

theorem hostAccess_sameToHostBut {x : HostAccess} {s s' t : State} (h : SameToHost s s') (hc : s.cfg.wf = true)
    (ht : hostAccess x s = .next t) : ∃ t', hostAccess x s' = .next t' ∧ SameToHostBut (DigestByte s x) t t' := by
  cases x with
  | write a w v =>
    simp only [hostAccess, hostWrite] at ht ⊢
    rw [← h.cfg]
    cases hr : regAt s.cfg a w with
    | none => rw [hr] at ht; cases ht
    | some r =>
      rw [hr] at ht
      cases r with
      | cmd =>
        obtain ⟨rfl, rfl⟩ := regAt_eq_some.1 hr
        obtain ⟨t', ht', hsame⟩ := commandWrite_sameToHostBut h hc ht
        exact ⟨t', ht', hsame.mono fun a ha => ⟨ha.1, v, rfl, ha.2⟩⟩
      | status => cases ht; exact ⟨_, rfl, h.but _⟩
      | src => cases ht; exact ⟨_, rfl, (h.writeSrc v).but _⟩
      | len => cases ht; exact ⟨_, rfl, (h.writeLen v).but _⟩
      | dst => cases ht; exact ⟨_, rfl, (h.writeDst v).but _⟩
  | read a w =>
    simp only [hostAccess, hostRead_eq] at ht ⊢
    rw [← h.cfg]
    cases hr : regAt s.cfg a w with
    | none => rw [hr] at ht; cases ht
    | some r =>
      rw [hr] at ht
      cases ht
      exact ⟨_, rfl, h.readValue r ▸ (h.returnData _).but _⟩
  | store a b =>
    simp only [hostAccess, hostStore] at ht ⊢
    rw [← h.cfg]
    split_ifs at ht ⊢
    cases ht
    exact ⟨_, rfl, (h.storeByte a b).but _⟩
  | load a =>
    simp only [hostAccess, hostLoad] at ht ⊢
    rw [← h.cfg, ← h.mem]
    split_ifs at ht ⊢
    cases ht
    exact ⟨_, rfl, (h.returnData _).but _⟩
  | reset => cases ht; exact ⟨_, rfl, h.assertReset.but _⟩

/-- Settles O41: the step is the same access in both states, and only the digest bytes of a FINALIZE are computed from
what they differ in. -/
theorem hiddenStateIsHidden : Obligations.HiddenStateIsHidden := by
  intro s s' t h hstep
  obtain ⟨t', hstep', hsame, hmem⟩ : ∃ t', step s' = .next t' ∧
      SameToHostBut (fun a => ∃ x ∈ s.script.head?, DigestByte s x a) t t' := by
    obtain ⟨hc, ⟨hs, rfl⟩ | ⟨x, rest, hs, hx⟩⟩ := step_cases hstep
    · refine ⟨s', ?_, h.but _⟩
      rw [step, hostStep, ← h.cfg, if_pos hc, ← h.script, hs]
    · obtain ⟨t', ht', hsame⟩ := hostAccess_sameToHostBut (h.withScript rest) hc hx
      refine ⟨t', ?_, hsame.mono fun a ha => ⟨x, by simp [hs], ha⟩⟩
      rw [step_of_script (h.cfg ▸ hc) (h.script ▸ hs), ht']
  refine ⟨t', hstep', hsame.cfg, hsame.lifecycle, hsame.fault, hsame.cause, hsame.status, hsame.src, hsame.len,
    hsame.dst, hsame.rdata, hsame.script, fun a => (hmem a).imp_right ?_⟩
  rintro ⟨x, hx, ⟨hlo, hhi⟩, v, rfl, hd⟩
  exact ⟨hlo, hhi, v, hx, hd⟩

end Sys2Proof.Machine
end

section
/-! SUPPORT. Host memory, words as bytes, and independence of place (20_memory.md R60 to R69, R33): what a byte access
of the Host does, that `ser_ORDER` and `asm_ORDER` are inverse, and that UPDATE and FINALIZE see bytes and not where
they stand. -/

namespace Sys2Proof.Machine

/-! ### Byte accesses of the Host -/

/-- A Host store outside the register window, as a step (R60). -/
theorem step_store {s : State} (hc : s.cfg.wf = true) {a : Nat} {b : Byte} {rest : List HostAccess}
    (hs : s.script = .store a b :: rest) (hw : ¬inWindow s.cfg a = true) :
    step s = if a < 2 ^ s.cfg.AW then .next ((s.withScript rest).storeByte a b) else .fault (.noSuchAddress a) := by
  rw [step_of_script hc hs]
  exact if_neg hw

/-- A Host load outside the register window, as a step (R60). -/
theorem step_load {s : State} (hc : s.cfg.wf = true) {a : Nat} {rest : List HostAccess}
    (hs : s.script = .load a :: rest) (hw : ¬inWindow s.cfg a = true) :
    step s = if a < 2 ^ s.cfg.AW then .next ((s.withScript rest).returnData ((s.mem.read a).setWidth 64))
      else .fault (.noSuchAddress a) := by
  rw [step_of_script hc hs]
  exact if_neg hw

/-- Settles O46: a byte access outside the window is split at `2^AW`, and a memory in canonical form reads back what was
written. -/
theorem hostMemory : Obligations.HostMemory := by
  intro s rest a h hwindow
  have hw : ¬inWindow s.cfg a = true := inWindow_iff.not.2 hwindow
  refine ⟨fun b hs ha => ?_, fun hs ha => ?_, fun b hs ha => ?_, fun hs ha => ?_⟩
  · refine ⟨(s.withScript rest).storeByte a b, ?_, ?_, fun x hx => ?_, rfl⟩
    · rw [step_store h.cfg hs hw, if_pos ha]
    · exact Memory.read_write_same a b h.memForm
    · exact Memory.read_write_other b hx
  · rw [step_load h.cfg hs hw, if_pos ha]
    rfl
  · rw [step_store h.cfg hs hw, if_neg ha.not_gt]
  · rw [step_load h.cfg hs hw, if_neg ha.not_gt]

/-! ### Words as bytes, low byte first -/

/-- The number that a byte sequence stands for, low byte first: `asm_LE` by recursion on the bytes (R68). -/
def leValue : List Byte → Nat
  | [] => 0
  | b :: bs => b.toNat + 256 * leValue bs

/-- The `n` low bytes of a number, low byte first: `ser_LE` by recursion on their count (R69). -/
def leBytes : Nat → Nat → List Byte
  | 0, _ => []
  | n + 1, v => BitVec.ofNat 8 v :: leBytes n (v / 256)

/-- One more byte: the low byte of a number is its remainder, and the rest its quotient, modulo 256. -/
theorem byte_add_mul_eq_iff (b : Byte) (m v : Nat) :
    b.toNat + 256 * m = v ↔ b = BitVec.ofNat 8 v ∧ m = v / 256 := by
  rw [← BitVec.toNat_inj, BitVec.toNat_ofNat]
  have := b.isLt
  omega

/-- Low byte first, a number below `2^(8*n)` has exactly one sequence of `n` bytes. -/
theorem leValue_eq_iff {b : List Byte} {v : Nat} (hv : v < 2 ^ (8 * b.length)) :
    leValue b = v ↔ b = leBytes b.length v := by
  induction b generalizing v with
  | nil =>
    obtain rfl : v = 0 := by simpa using hv
    exact iff_of_true rfl rfl
  | cons x xs ih =>
    have hquot : v / 256 < 2 ^ (8 * xs.length) := by
      rw [List.length_cons, Nat.mul_succ, Nat.pow_add] at hv
      exact Nat.div_lt_of_lt_mul (by rwa [Nat.mul_comm])
    rw [leValue, byte_add_mul_eq_iff, ih hquot, List.length_cons, leBytes, List.cons.injEq]

theorem leValue_eq_sum (b : List Byte) :
    leValue b = ((List.range b.length).map fun i => (b.getD i 0).toNat * 2 ^ (8 * i)).sum := by
  induction b with
  | nil => rfl
  | cons x xs ih =>
    rw [leValue, ih, List.length_cons, List.range_succ_eq_map, List.map_cons, List.sum_cons, List.map_map,
      ← List.sum_map_mul_left]
    congr 2
    · simp
    · refine List.map_congr_left fun i _ => ?_
      simp only [Function.comp, Nat.succ_eq_add_one, List.getD_cons_succ, Nat.mul_add, Nat.pow_add]
      ring

theorem leBytes_eq_map (n v : Nat) :
    leBytes n v = (List.range n).map fun i => BitVec.ofNat 8 ((v >>> (8 * i)) % 256) := by
  induction n generalizing v with
  | zero => rfl
  | succ n ih =>
    rw [leBytes, ih, List.range_succ_eq_map, List.map_cons, List.map_map]
    congr 1
    · apply BitVec.eq_of_toNat_eq; simp
    · refine List.map_congr_left fun i _ => ?_
      simp only [Function.comp, Nat.succ_eq_add_one, Nat.mul_add, Nat.shiftRight_eq_div_pow]
      rw [Nat.div_div_eq_div_mul, Nat.pow_add, Nat.mul_comm 256]

/-! ### The model's words: `LE` is low byte first, and `BE` is its reverse (R68, R69) -/

theorem asmWord_le {c : Config} (hc : c.order = .le) {b : List Byte} (hb : b.length = c.W) :
    asmWord c b = leValue b := by
  rw [leValue_eq_sum, asmWord, hc, hb]

theorem serWord_le {c : Config} (hc : c.order = .le) (v : Word) : serWord c v = leBytes c.W v := by
  rw [leBytes_eq_map, serWord, hc]

theorem reverse_map_range {α : Type} (f : Nat → α) (n : Nat) :
    ((List.range n).map f).reverse = (List.range n).map fun i => f (n - 1 - i) :=
  List.ext_getElem (by simp) (by simp)

theorem asmWord_be {c : Config} (hc : c.order = .be) {b : List Byte} (hb : b.length = c.W) :
    asmWord c b = leValue b.reverse := by
  simp only [asmWord, hc]
  rw [leValue_eq_sum, List.length_reverse, hb, ← List.sum_reverse, reverse_map_range]
  refine congrArg List.sum (List.map_congr_left fun i hi => ?_)
  have hi := List.mem_range.1 hi
  rw [List.getD_reverse i (by omega), hb, show c.W - 1 - (c.W - 1 - i) = i by omega]

theorem serWord_be {c : Config} (hc : c.order = .be) (v : Word) : serWord c v = (leBytes c.W v).reverse := by
  rw [leBytes_eq_map, serWord, hc, reverse_map_range]

/-- `ser_ORDER(v)` is the one sequence of `W` bytes that `asm_ORDER` takes to `v` (R69). -/
theorem asmWord_eq_iff {c : Config} {v : Word} (hv : v < 2 ^ c.wb) {b : List Byte} (hb : b.length = c.W) :
    asmWord c b = v ↔ b = serWord c v := by
  cases hc : c.order with
  | le =>
    rw [asmWord_le hc hb, serWord_le hc, leValue_eq_iff (by rwa [hb]), hb]
  | be =>
    rw [asmWord_be hc hb, serWord_be hc, leValue_eq_iff (by rwa [List.length_reverse, hb]), List.length_reverse, hb,
      List.reverse_eq_iff]

/-- Settles O25: the bytes of a word are unique by recursion on them, `BE` by reversing, and the closed form is the
definition's own. -/
theorem serialisingInvertsAssembling : Obligations.SerialisingInvertsAssembling := by
  intro c v hv
  refine ⟨fun b hb => asmWord_eq_iff hv hb, length_serWord c v, fun i hi => ?_⟩
  unfold serWord
  cases c.order <;> simp [hi, Nat.shiftRight_eq_div_pow]

/-! ### Independence of place and of the tail of `PEND` -/

/-- Two states agree on what a stream has left in the engine: the configuration, `ACC`, the counter and the valid bytes
of `PEND`, but not its tail (R33). -/
structure SameStream (s s' : State) : Prop where
  cfg : s.cfg = s'.cfg
  acc : s.acc = s'.acc
  cntLo : s.cntLo = s'.cntLo
  cntHi : s.cntHi = s'.cntHi
  pending : s.pend.take s.valid = s'.pend.take s'.valid

theorem SameStream.valid {s s' : State} (h : SameStream s s') : s.valid = s'.valid := by
  rw [State.valid, State.valid, h.cntLo, h.cfg]

/-- UPDATE takes the same input bytes to the same stream state: all of it is computed from the valid pending bytes and
the input (R65, R120). -/
theorem SameStream.append {s s' : State} (h : SameStream s s') (hs : s.Wf) (hs' : s'.Wf) (hI : s.input = s'.input) :
    SameStream (s.append s.input).forgetTail (s'.append s'.input).forgetTail := by
  obtain ⟨hacc, -, hpend⟩ := append_spec hs
  obtain ⟨hacc', -, hpend'⟩ := append_spec hs'
  have hlen : s.lenOperand = s'.lenOperand := by rw [← length_input, hI, length_input]
  refine ⟨h.cfg, ?_, ?_, ?_, ?_⟩
  · rw [hacc, hacc', h.cfg, h.acc, h.pending, hI]
  · simp [h.cfg, h.cntLo, h.cntHi, hlen]
  · simp [h.cfg, h.cntLo, h.cntHi, hlen]
  · rw [hpend, hpend', h.pending, h.cfg, h.valid, hI, hlen]

/-- The final blocks are made of the valid pending bytes and the counter (R143 to R148). -/
theorem SameStream.finalAcc {s s' : State} (h : SameStream s s') (hs : s.Wf) (hs' : s'.Wf) :
    s.finalAcc = s'.finalAcc := by
  rw [finalAcc_eq (wf_sizes hs.cfg) hs.pendLength, finalAcc_eq (wf_sizes hs'.cfg) hs'.pendLength, h.pending, h.cfg,
    h.acc, h.cntLo, h.cntHi, h.valid]

/-- Byte `k` of the digest that FINALIZE writes, at its destination (R149). -/
theorem writeDigest_read {s : State} (h : s.Wf) {k : Nat} (hk : k < s.cfg.H) :
    s.writeDigest.mem.read (s.dstOperand + k) = (digestBytes s.cfg s.finalAcc).getD k 0 := by
  have hlt : k < (digestBytes s.cfg s.finalAcc).length := by rwa [length_digestBytes (wf_sizes h.cfg)]
  rw [State.writeDigest_mem, Memory.read_writeBytes h.memForm hlt, List.getD_eq_getElem _ _ hlt]

/-- Settles O40: UPDATE and FINALIZE are functions of the valid pending bytes, so the stream states they reach and the
digests they write agree. -/
theorem alignmentAndTailDoNotMatter : Obligations.AlignmentAndTailDoNotMatter := by
  intro s s' hs hs' hf hf' ha ha' hcfg hacc hlo hhi hpend
  have h : SameStream s s' := ⟨hcfg, hacc, hlo, hhi, by simpa using hpend⟩
  constructor
  · intro hspan hspan' hI
    have ht := h.append hs hs' hI
    exact ⟨_, _, exec_update_ok hs.cfg hf ha hspan, exec_update_ok hs'.cfg hf' ha' hspan', hf, hf', ht.acc, ht.cntLo,
      ht.cntHi, ha.trans ha'.symm, by simpa using ht.pending⟩
  · intro hspan hspan'
    refine ⟨_, _, exec_finalize_ok hs.cfg hf ha hspan, exec_finalize_ok hs'.cfg hf' ha' hspan', hf, hf',
      fun k hk => ?_⟩
    rw [State.consume_mem, State.consume_mem, writeDigest_read hs hk, writeDigest_read hs' (hcfg ▸ hk), hcfg,
      h.finalAcc hs hs']

end Sys2Proof.Machine
end

section
/-! SUPPORT. The command word (30_encoding.md R80 to R87): the words that are commands, what a `CMD` write of one does,
and what no command writes. -/

namespace Sys2Proof

/-! ### The fields of a word -/

@[simp] theorem rsvField_append (r : BitVec 28) (op : BitVec 4) : rsvField (r ++ op) = r :=
  BitVec.extractLsb'_append_eq_left

@[simp] theorem opField_append (r : BitVec 28) (op : BitVec 4) : opField (r ++ op) = op :=
  BitVec.extractLsb'_append_eq_right

/-- The two fields are the whole word (R80). -/
theorem rsvField_append_opField (c : BitVec 32) : rsvField c ++ opField c = c := by
  rw [rsvField, opField, BitVec.extractLsb'_append_extractLsb'_eq_extractLsb' (by rfl)]
  exact BitVec.extractLsb'_eq_self

/-- A command's word is decoded as that command. -/
theorem decode_encode (i : Instr) : decode (encode i) = .ok i := by
  cases i with
  | init => exact Laws.RoundTrip.init.1
  | update => exact Laws.RoundTrip.update.1
  | finalize => exact Laws.RoundTrip.finalize.1

/-- The only word that is decoded as a command is that command's: `RSV` is 0 and `OP` is the command's value, and there
is no other field (R82, R85). -/
theorem decode_eq_ok_iff {c : BitVec 32} {i : Instr} : decode c = .ok i ↔ c = encode i := by
  refine ⟨fun h => ?_, fun h => h ▸ decode_encode i⟩
  suffices hfields : rsvField c = 0 ∧ opField c = opOf i by
    rw [encode, ← rsvField_append_opField c, hfields.1, hfields.2]
  unfold decode at h
  split_ifs at h with hrsv hinit hupdate hfinalize <;> cases h
  · exact ⟨not_not.1 hrsv, hinit⟩
  · exact ⟨not_not.1 hrsv, hupdate⟩
  · exact ⟨not_not.1 hrsv, hfinalize⟩

/-- With `RSV = 0`, the `OP` value decides (R81). -/
theorem decode_zero_append (op : BitVec 4) :
    decode ((0 : BitVec 28) ++ op) =
      if op = 0x1 then .ok .init else if op = 0x2 then .ok .update else if op = 0x3 then .ok .finalize
      else .error .reservedOp := by
  rw [decode, rsvField_append, opField_append, if_neg (not_not.2 rfl)]

/-- Exactly three words are commands (R82). -/
theorem decode_ok_iff {c : BitVec 32} :
    (∃ i, decode c = .ok i) ↔ c = 0x00000001 ∨ c = 0x00000002 ∨ c = 0x00000003 := by
  constructor
  · rintro ⟨i, hi⟩
    obtain rfl := decode_eq_ok_iff.1 hi
    cases i with
    | init => exact .inl rfl
    | update => exact .inr (.inl rfl)
    | finalize => exact .inr (.inr rfl)
  · rintro (rfl | rfl | rfl)
    · exact ⟨.init, decode_encode .init⟩
    · exact ⟨.update, decode_encode .update⟩
    · exact ⟨.finalize, decode_encode .finalize⟩

end Sys2Proof

namespace Sys2Proof.Machine

/-- Settles O1: the `OP` value decides, and the three words are computed. -/
theorem everyOpValueDecodes : Obligations.EveryOpValueDecodes :=
  ⟨decode_zero_append, rfl, rfl, rfl⟩

/-- Settles O2: the words are computed. -/
theorem sampleWordsDecode : Obligations.SampleWordsDecode := by
  unfold Obligations.SampleWordsDecode
  decide

/-- Settles O4: a word is decoded as a command exactly when it is that command's word. -/
theorem decodeAndEncodeAgree : Obligations.DecodeAndEncodeAgree :=
  ⟨fun i _ => decode_encode i, fun _ _ h => (decode_eq_ok_iff.1 h).symm⟩

/-! ### What a CMD write issues -/

/-- A `CMD` write of a command's word is the command (R87). -/
theorem commandWrite_ok {w : BitVec 32} {i : Instr} {s : State} (hf : s.fault = false) (hd : decode w = .ok i) :
    commandWrite w s = exec i s := by
  rw [commandWrite, unlessFaulted_running hf, hd]

/-- A `CMD` write of a word that is no command's enters the fault `ILLEGAL_COMMAND` (R173). -/
theorem commandWrite_illegal {w : BitVec 32} {s : State} (hf : s.fault = false) (hd : ¬∃ i, decode w = .ok i) :
    commandWrite w s = .next (s.raiseFault .illegalCommand) := by
  rw [commandWrite, unlessFaulted_running hf]
  cases hw : decode w with
  | error e => rfl
  | ok i => exact absurd ⟨i, hw⟩ hd

/-- Settles O3: the three words are those of the three commands, and any other word is no command's. -/
theorem exactlyThreeWordsAreLegal : Obligations.ExactlyThreeWordsAreLegal := by
  refine ⟨rfl, fun c => decode_ok_iff, fun c s hf h1 h2 h3 => commandWrite_illegal hf fun hd => ?_⟩
  rcases decode_ok_iff.1 hd with h | h | h
  · exact h1 h
  · exact h2 h
  · exact h3 h

/-- The low 32 bits of the access that `withFetchWord` puts first are the word. -/
theorem setWidth_ofNat_mod (w : Nat) : (BitVec.ofNat 64 (w % 2 ^ 32)).setWidth 32 = BitVec.ofNat 32 w := by
  apply BitVec.eq_of_toNat_eq
  simp only [BitVec.toNat_setWidth, BitVec.toNat_ofNat]
  omega

/-- Settles O5: the step is the `CMD` write of O43, at a word that is a command's. -/
theorem stepRunsTheIssuedCommand : Obligations.StepRunsTheIssuedCommand := by
  have hstep : ∀ (s : State) (rest : List HostAccess) (v : BitVec 64) (i : Instr), s.cfg.wf = true →
      s.fault = false → s.script = .write s.cfg.base 32 v :: rest → decode (v.setWidth 32) = .ok i →
      step s = exec i (s.withScript rest) := by
    intro s rest v i hc hf hs hd
    exact ((commandRegister s rest hc).1 v hs).trans (commandWrite_ok hf hd)
  refine ⟨hstep, fun s w i hc hf _ hd => ?_⟩
  exact hstep (s.withFetchWord 32 w) s.script _ i hc hf rfl (by rwa [setWidth_ofNat_mod])

/-! ### What a command leaves alone -/

/-- A command does nothing while `FAULT = 1` (R87, R178). -/
theorem exec_faulted (i : Instr) {s : State} (hf : s.fault = true) : exec i s = .next s := by
  cases i with
  | init | update | finalize => exact unlessFaulted_faulted hf _

/-- Settles O35: the check of R87 stands first in each meaning. -/
theorem commandsIgnoredWhileFaulted : Obligations.CommandsIgnoredWhileFaulted :=
  fun i _ => exec_faulted i

/-- No command makes an access for the Host: its last read and its pending accesses stay. -/
theorem exec_keeps_host {i : Instr} {s t : State} (h : exec i s = .next t) :
    t.rdata = s.rdata ∧ t.script = s.script := by
  rcases exec_cases h with ⟨-, rfl⟩ | ⟨-, ⟨k, -, -, rfl⟩ | ⟨-, rfl⟩ | ⟨-, -, -, rfl⟩ | ⟨-, -, -, rfl⟩⟩ <;>
    exact ⟨rfl, rfl⟩

/-- A command leaves memory alone, unless it is a FINALIZE that writes its digest (R66, R149). -/
theorem exec_mem {i : Instr} {s t : State} (h : exec i s = .next t) :
    t.mem = s.mem ∨ (i = .finalize ∧ t.mem = s.writeDigest.mem) := by
  rcases exec_cases h with ⟨-, rfl⟩ | ⟨-, ⟨k, -, -, rfl⟩ | ⟨-, rfl⟩ | ⟨-, -, -, rfl⟩ | ⟨hi, -, -, rfl⟩⟩
  · exact .inl rfl
  · exact .inl rfl
  · exact .inl rfl
  · exact .inl rfl
  · exact .inr ⟨hi, rfl⟩

/-- The digest is `H` bytes from `dst`, so every byte outside them stays (R149). -/
theorem writeDigest_read_outside {s : State} (hc : s.cfg.wf = true) {a : Nat}
    (ha : a < s.dstOperand ∨ s.dstOperand + s.cfg.H ≤ a) : s.writeDigest.mem.read a = s.mem.read a := by
  rw [State.writeDigest_mem, Memory.read_writeBytes_outside (by rwa [length_digestBytes (wf_sizes hc)])]

/-- Settles O38: no command writes the operand registers or what belongs to the Host, and the digest of a FINALIZE is
all that any command writes to memory. -/
theorem noCommandWritesOperands : Obligations.NoCommandWritesOperands := by
  intro i s t h
  obtain ⟨hsrc, hlen, hdst⟩ := exec_keeps_operands h
  obtain ⟨hrdata, hscript⟩ := exec_keeps_host h
  refine ⟨exec_keeps_cfg h, hsrc, hlen, hdst, hrdata, hscript, fun hi a => ?_, fun a ha hc => ?_⟩
  · rcases exec_mem h with hm | ⟨hfin, -⟩
    · rw [hm]
    · exact absurd hfin hi
  · rcases exec_mem h with hm | ⟨-, hm⟩
    · rw [hm]
    · rw [hm, writeDigest_read_outside hc ha]

end Sys2Proof.Machine
end

section
/-! SUPPORT. The control flow of one stream (R90, R151, R203): the digest of the stream a state holds, the lines of the
Host's program as runs, and the whole program. -/

namespace Sys2Proof.Machine

/-! ### The digest of the stream a state holds -/

/-- Eight bits per byte: the two bit-count words are the low and the high word of `8 * CNT` (R141, R142). The three bits
that leave the low word are its quotient by `2^(wb - 3)`. -/
theorem bitCount_eq {c : Config} (hwb : 3 ≤ c.wb) (lo hi : Word) :
    bitCount c lo hi = (8 * (hi * 2 ^ c.wb + lo) % 2 ^ (2 * c.wb) % 2 ^ c.wb,
      8 * (hi * 2 ^ c.wb + lo) % 2 ^ (2 * c.wb) / 2 ^ c.wb) := by
  have hM : 0 < 2 ^ c.wb := Nat.two_pow_pos _
  have hcarry : lo >>> (c.wb - 3) = 8 * lo / 2 ^ c.wb := by
    obtain ⟨k, hk⟩ := Nat.exists_eq_add_of_le hwb
    rw [hk, Nat.add_sub_cancel_left, Nat.shiftRight_eq_div_pow, Nat.pow_add]
    exact (Nat.mul_div_mul_left lo (2 ^ k) (by decide)).symm
  have hbits : 8 * (hi * 2 ^ c.wb + lo) = 8 * lo + 2 ^ c.wb * (8 * hi) := by ring
  rw [bitCount, hcarry, hbits, Nat.shiftLeft_eq, Nat.shiftLeft_eq,
    show 2 ^ (2 * c.wb) = 2 ^ c.wb * 2 ^ c.wb by rw [Nat.two_mul, Nat.pow_add],
    Nat.mod_mul_right_mod, Nat.mod_mul_right_div_self, Nat.add_mul_mod_self_left, Nat.add_mul_div_left _ _ hM,
    Nat.mul_comm lo, Nat.mul_comm hi]

/-- The length bytes that FINALIZE writes are the length field of the stream (R142, R146, R147). -/
theorem State.Holds.lengthBytes_eq {s : State} {S : List Byte} (h : s.Wf) (hS : s.Holds S) :
    lengthBytes s.cfg (bitCount s.cfg s.cntLo s.cntHi) = lengthField s.cfg S.length := by
  have hwb : 3 ≤ s.cfg.wb := by
    have := (wf_sizes h.cfg).W_pos
    rw [Config.wb]; omega
  have hcnt : s.cntHi * 2 ^ s.cfg.wb + s.cntLo = S.length % 2 ^ (2 * s.cfg.wb) := hS.count
  rw [bitCount_eq hwb, hcnt, Nat.mul_mod_mod]
  rfl

/-- FINALIZE ends in the accumulator of the whole stream: the blocks folded before, the pending bytes and the padding
are the padded message (R151). -/
theorem State.Holds.finalAcc_eq_streamAcc {s : State} {S : List Byte} (h : s.Wf) (hS : s.Holds S) :
    s.finalAcc = streamAcc s.cfg S := by
  have hz := wf_sizes h.cfg
  obtain ⟨P, k, hsplit, hP, hfold⟩ := hS.split
  have hmessage : paddedMessage s.cfg S = P ++ (s.pend.take s.valid ++ [0x80]
      ++ zeros (zeroCount s.cfg S.length) ++ lengthField s.cfg S.length) := by
    simp only [paddedMessage, List.append_assoc]
    rw [← List.append_assoc P, ← hsplit]
  rw [finalAcc_eq hz h.pendLength, hS.lengthBytes_eq h, hfold, streamAcc, hmessage, compress_append hz.B_pos hP,
    zeroCount_eq hz, ← hS.fill]

/-! ### The lines of the program as runs -/

/-- Between two lines of the program: in configuration `c` and memory `m`, the engine holds the stream `S` and the Host
has the accesses `rest` still to make (R49, R90). -/
structure Streaming (c : Config) (m : Memory) (S : List Byte) (rest : List HostAccess) (s : State) : Prop where
  wf : s.Wf
  holds : s.Holds S
  cfg : s.cfg = c
  mem : s.mem = m
  script : s.script = rest

/-- A span `(src, len)` is valid, as R61 and R62 word it. -/
def SpanOk (c : Config) (src len : BitVec 64) : Prop :=
  len.toNat % 2 ^ c.LW = 0 ∨
    (src.toNat % 2 ^ c.AW + len.toNat % 2 ^ c.LW ≤ 2 ^ c.AW ∧
      ∀ k < len.toNat % 2 ^ c.LW, c.readable.has (src.toNat % 2 ^ c.AW + k) = true)

theorem spansOk_cons {c : Config} {p : BitVec 64 × BitVec 64} {spans : List (BitVec 64 × BitVec 64)} :
    SpansOk c (p :: spans) ↔ SpanOk c p.1 p.2 ∧ SpansOk c spans :=
  List.forall_mem_cons

section Lines

variable {c : Config} {m : Memory} {S : List Byte} {rest : List HostAccess} {s : State}

/-- INIT, from any state with `FAULT = 0`, starts the empty stream (R100). -/
theorem init_streaming (h : s.Wf) (hf : s.fault = false)
    (hs : s.script = issueCommand s.cfg .init :: rest) : ∃ t, step s = .next t ∧ Streaming s.cfg s.mem [] rest t := by
  have h' := h.withScript rest
  refine ⟨_, (step_issueCommand h.cfg hf hs).trans (execInit_running hf), ?_⟩
  exact ⟨h'.beginStream.forgetTail, .beginStream h' hf, rfl, rfl, rfl⟩

/-- The stream does not depend on the accesses to come. -/
theorem Streaming.withScript
    (h : Streaming c m S rest s) (rest' : List HostAccess) : Streaming c m S rest' (s.withScript rest') :=
  ⟨h.wf.withScript rest', h.holds.of_eq rfl rfl rfl rfl rfl rfl rfl, h.cfg, h.mem, rfl⟩

/-- What a Host write of `v` to a register other than `CMD` stores (R40 to R43). -/
def State.setReg (s : State) (v : BitVec 64) : Reg → State
  | .cmd | .status => s
  | .src => s.writeSrc v
  | .len => s.writeLen v
  | .dst => s.writeDst v

theorem Streaming.setReg
    (h : Streaming c m S rest s) (v : BitVec 64) (r : Reg) : Streaming c m S rest (s.setReg v r) := by
  have hS : (s.setReg v r).Holds S := by
    cases r <;> exact h.holds.of_eq rfl rfl rfl rfl rfl rfl rfl
  cases r with
  | cmd | status => exact h
  | src => exact ⟨h.wf.writeSrc v, hS, h.cfg, h.mem, h.script⟩
  | len => exact ⟨h.wf.writeLen v, hS, h.cfg, h.mem, h.script⟩
  | dst => exact ⟨h.wf.writeDst v, hS, h.cfg, h.mem, h.script⟩

/-- A write of a register other than `CMD` is no command: the engine goes on holding the stream (R40 to R43). -/
theorem Streaming.put {r : Reg} {v : BitVec 64} (h : Streaming c m S (r.put c v :: rest) s) (hr : r ≠ .cmd) :
    step s = .next ((s.withScript rest).setReg v r) ∧ Streaming c m S rest ((s.withScript rest).setReg v r) := by
  refine ⟨?_, (h.withScript rest).setReg v r⟩
  rw [step_put h.wf.cfg (h.cfg ▸ h.script)]
  cases r with
  | cmd => exact absurd rfl hr
  | status | src | len | dst => rfl

/-- The issue of a command is that command, with the engine holding the stream (R87). -/
theorem Streaming.issue {i : Instr} (h : Streaming c m S (issueCommand c i :: rest) s) :
    step s = exec i (s.withScript rest) ∧ Streaming c m S rest (s.withScript rest) :=
  ⟨step_issueCommand h.wf.cfg h.holds.running (h.cfg ▸ h.script), h.withScript rest⟩

/-- UPDATE over a valid span appends its input (R123). -/
theorem Streaming.exec_update (h : Streaming c m S rest s) (hspan : s.lenOperand = 0 ∨ s.InputSpanOk) :
    ∃ t, exec .update s = .next t ∧ Streaming c m (S ++ s.input) rest t :=
  ⟨_, exec_update_ok h.wf.cfg h.holds.running h.holds.active hspan, (h.wf.append _).forgetTail, h.holds.append h.wf,
    h.cfg, h.mem, h.script⟩

/-- The three accesses of `update <src>, <len>` append the bytes of the span to the stream (R90, R110). -/
theorem update_streaming
    {src len : BitVec 64} (h : Streaming c m S (updateProgram c src len ++ rest) s) (hspan : SpanOk c src len) :
    ∃ t, Runs 3 s t ∧
      Streaming c m (S ++ m.readSpan (src.toNat % 2 ^ c.AW) (len.toNat % 2 ^ c.LW)) rest t := by
  simp only [updateProgram, List.cons_append, List.nil_append] at h
  obtain ⟨hstep₁, h₁⟩ := h.put (by decide)
  obtain ⟨hstep₂, h₂⟩ := h₁.put (by decide)
  obtain ⟨hstep₃, h₃⟩ := h₂.issue
  generalize hu : State.withScript _ rest = u at hstep₃ h₃
  obtain ⟨hAW, hLW⟩ := wf_widths h.wf.cfg
  have hsrc : u.srcOperand = src.toNat % 2 ^ c.AW := by
    rw [← hu, ← h.cfg]; exact toNat_lowBits_mod hAW src
  have hlen : u.lenOperand = len.toNat % 2 ^ c.LW := by
    rw [← hu, ← h.cfg]; exact toNat_lowBits_mod hLW len
  have hok : u.lenOperand = 0 ∨ u.InputSpanOk := by
    rw [State.InputSpanOk, hsrc, hlen, h₃.cfg]; exact hspan
  obtain ⟨t, hexec, ht⟩ := h₃.exec_update hok
  rw [State.input, hsrc, hlen, h₃.mem] at ht
  exact ⟨t, ⟨_, hstep₁, _, hstep₂, _, hstep₃.trans hexec, rfl⟩, ht⟩

/-- UPDATE commands over valid spans append the bytes of the spans, one span after the other. -/
theorem updates_streaming {spans : List (BitVec 64 × BitVec 64)} (hspans : SpansOk c spans)
    (h : Streaming c m S (updatePrograms c spans ++ rest) s) :
    ∃ t, Runs (updatePrograms c spans).length s t ∧ Streaming c m (S ++ spansBytes c m spans) rest t := by
  induction spans generalizing S s with
  | nil => exact ⟨s, rfl, by simpa [spansBytes, updatePrograms] using h⟩
  | cons p spans ih =>
    obtain ⟨hp, hspans⟩ := spansOk_cons.1 hspans
    have hprogram : updatePrograms c (p :: spans) = updateProgram c p.1 p.2 ++ updatePrograms c spans := rfl
    rw [hprogram, List.append_assoc] at h
    obtain ⟨u, hfirst, hu⟩ := update_streaming h hp
    obtain ⟨t, hothers, ht⟩ := ih hspans hu
    rw [List.append_assoc] at ht
    refine ⟨t, ?_, ht⟩
    rw [hprogram, List.length_append]
    exact hfirst.append hothers

/-- `STATUS` reads 2 after a FINALIZE without a fault (R40). -/
theorem status_finalized (hl : s.lifecycle = .finalized) (hf : s.fault = false) (hk : s.cause = .none) :
    s.status = 0x00000002 := by
  rw [State.status, hl, hf, hk]
  decide

/-- FINALIZE over a valid span writes the digest of the stream and nothing else of memory (R149, R151). -/
theorem Streaming.exec_finalize (h : Streaming c m S rest s) (hspan : s.DigestSpanOk) :
    ∃ t, exec .finalize s = .next t ∧ t.fault = false ∧ t.status = 0x00000002 ∧ t.script = rest ∧
      DigestAt c t.mem s.dstOperand (streamAcc c S) ∧
      ∀ a, a < s.dstOperand ∨ s.dstOperand + c.H ≤ a → t.mem.read a = m.read a := by
  obtain ⟨hwf, hS, rfl, rfl, rfl⟩ := h
  refine ⟨_, exec_finalize_ok hwf.cfg hS.running hS.active hspan, hS.running, ?_, rfl, ?_, ?_⟩
  · exact status_finalized rfl hS.running (hwf.cause.1 hS.running)
  · rw [State.consume_mem, State.writeDigest_mem, hS.finalAcc_eq_streamAcc hwf]
    exact digestAt_write (wf_sizes hwf.cfg) hwf.memForm _ _
  · exact fun a ha => writeDigest_read_outside hwf.cfg ha

/-- The two accesses of `finalize <dst>` write the digest of the stream at `dst` (R90, R140). -/
theorem finalize_streaming {dst : BitVec 64}
    (h : Streaming c m S (finalizeProgram c dst) s) (hend : dst.toNat % 2 ^ c.AW + c.H ≤ 2 ^ c.AW)
    (hwritable : ∀ k < c.H, c.writable.has (dst.toNat % 2 ^ c.AW + k) = true) :
    ∃ t, Runs 2 s t ∧ t.fault = false ∧ t.status = 0x00000002 ∧ t.script = [] ∧
      DigestAt c t.mem (dst.toNat % 2 ^ c.AW) (streamAcc c S) ∧
      ∀ a, a < dst.toNat % 2 ^ c.AW ∨ dst.toNat % 2 ^ c.AW + c.H ≤ a → t.mem.read a = m.read a := by
  obtain ⟨hstep₁, h₁⟩ := h.put (by decide)
  obtain ⟨hstep₂, h₂⟩ := h₁.issue
  generalize hu : State.withScript _ [] = u at hstep₂ h₂
  have hdst : u.dstOperand = dst.toNat % 2 ^ c.AW := by
    rw [← hu, ← h.cfg]; exact toNat_lowBits_mod (wf_widths h.wf.cfg).1 dst
  have hok : u.DigestSpanOk := by
    rw [State.DigestSpanOk, hdst, h₂.cfg]; exact ⟨hend, hwritable⟩
  obtain ⟨t, hexec, ht⟩ := h₂.exec_finalize hok
  rw [hdst] at ht
  exact ⟨t, ⟨_, hstep₁, _, hstep₂.trans hexec, rfl⟩, ht⟩

end Lines

/-! ### The whole program -/

/-- Settles O52: INIT starts the empty stream, each UPDATE appends its span, by induction on the spans, and FINALIZE
writes the digest of the stream that they leave. -/
theorem streamProgramHashes : Obligations.StreamProgramHashes := by
  intro s spans dst hwf hf hs hspans hend hwritable
  obtain ⟨u, hinit, hu⟩ := init_streaming hwf hf hs
  obtain ⟨v, hupdates, hv⟩ := updates_streaming hspans hu
  obtain ⟨t, hfinalize, hrunning, ht⟩ := finalize_streaming hv hend hwritable
  refine ⟨t, ⟨?_, by simp [State.Faulted, hrunning]⟩, ht⟩
  rw [hs, streamProgram, List.length_cons, List.length_append]
  exact ⟨u, hinit, hupdates.append hfinalize⟩

end Sys2Proof.Machine
end

section
/-! SUPPORT. INIT (40_init.md R100 to R102): what it leaves in every register, that a second INIT changes nothing the
first one fixed, and the digest of the stream that a state holds. -/

namespace Sys2Proof.Machine

/-! ### INIT starts a stream -/

/-- `STATUS` reads 1 while a stream is active and there is no fault (R40, R100). -/
theorem status_active {s : State} (hl : s.lifecycle = .active) (hf : s.fault = false) (hk : s.cause = .none) :
    s.status = 0x00000001 := by
  rw [State.status, hl, hf, hk]
  decide

/-- To the Host, INIT changes `LIFECYCLE` alone, so it changes nothing while a stream is active (R46, R100). -/
theorem sameToHost_init {s : State} (hl : s.lifecycle = .active) : SameToHost s.beginStream.forgetTail s where
  cfg := rfl
  lifecycle := hl.symm
  fault := rfl
  cause := rfl
  src := rfl
  len := rfl
  dst := rfl
  mem := rfl
  rdata := rfl
  script := rfl

/-- Settles O8: the fields of the state INIT answers are those of `beginStream`, and INIT issued in that state finds the
stream active and writes the counters and `ACC` as they are. -/
theorem initStartsStream : Obligations.InitStartsStream := by
  intro s hf
  have hsecond := execInit_running (s := s.beginStream.forgetTail) hf
  exact ⟨s.beginStream.forgetTail, execInit_running hf, rfl, rfl, rfl, rfl, State.beginStream_valid s,
    fun hk => status_active rfl hf hk, rfl, rfl, rfl, rfl, rfl, rfl, rfl, rfl, fun _ => rfl,
    _, hsecond, rfl, rfl, rfl, sameToHost_init rfl⟩

/-! ### The digest right after INIT -/

/-- The digest that FINALIZE writes is the digest of the stream that the state holds (R149, R151). -/
theorem State.Holds.digestAt_writeDigest {s : State} {S : List Byte} (h : s.Wf) (hS : s.Holds S) :
    DigestAt s.cfg s.writeDigest.mem s.dstOperand (streamAcc s.cfg S) := by
  rw [State.writeDigest_mem, hS.finalAcc_eq_streamAcc h]
  exact digestAt_write (wf_sizes h.cfg) h.memForm _ _

/-- Settles O9: INIT leaves a well-formed state that holds the empty stream, and FINALIZE writes the digest of the
stream it finds. -/
theorem initHoldsEmptyStream : Obligations.InitHoldsEmptyStream := by
  intro s h hf
  have hwf : s.beginStream.forgetTail.Wf := h.beginStream.forgetTail
  have hempty : s.beginStream.forgetTail.Holds [] := .beginStream h hf
  refine ⟨_, execInit_running hf, hempty, by simp [State.cnt], State.beginStream_valid s, rfl, fun hspan => ?_⟩
  exact ⟨_, exec_finalize_ok hwf.cfg hf rfl hspan, rfl, hempty.digestAt_writeDigest hwf⟩

end Sys2Proof.Machine
end

section
/-! SUPPORT. UPDATE (41_update.md R110 to R127): the byte counter, the three ways buffering can go, the stream that it
extends, and the obligations about them. -/

namespace Sys2Proof.Machine

/-! ### Slices at the ends of a sequence -/

theorem slice_to_end {α : Type} {a b : Nat} {X : List α} (h : X.length ≤ b) : slice a b X = X.drop a := by
  rw [slice, List.take_of_length_le]
  rw [List.length_drop]; omega

/-- A slice past `X` is a slice of what follows `X`, counted from its first element. -/
theorem slice_append_shift {α : Type} (a b : Nat) (X Y : List α) :
    slice (X.length + a) (X.length + b) (X ++ Y) = slice a b Y := by
  rw [slice_append_right (Nat.le_add_right ..), Nat.add_sub_cancel_left, Nat.add_sub_cancel_left]

/-- The two parts of a buffer that begins with `X ++ Y`. -/
theorem slices_of_take_eq_append {α : Type} {n k : Nat} {buf X Y : List α} (h : buf.take (n + k) = X ++ Y)
    (hX : X.length = n) : slice 0 n buf = X ∧ slice n (n + k) buf = Y := by
  constructor
  · rw [slice_zero, ← List.take_left' (l₂ := Y) hX, ← h, List.take_take, Nat.min_eq_left (Nat.le_add_right ..)]
  · rw [slice, ← List.drop_take, h, List.drop_left' hX]

/-! ### The byte counter -/

/-- Settles O12: `safe_shr` is the quotient by definition, and a length is below `2^LW`. -/
theorem shiftGuard : Obligations.ShiftGuard := by
  refine fun s => ⟨rfl, fun hLW => Nat.div_eq_of_lt ?_⟩
  calc s.lenOperand < 2 ^ s.cfg.LW := Nat.mod_lt _ (Nat.two_pow_pos _)
    _ ≤ 2 ^ s.cfg.wb := Nat.pow_le_pow_right (by decide) hLW

/-- Adding no byte leaves both counter words (R124). -/
theorem counterAdd_zero {c : Config} {lo hi : Word} (hlo : lo < 2 ^ c.wb) (hhi : hi < 2 ^ c.wb) :
    counterAdd c lo hi 0 = (lo, hi) := by
  simp [counterAdd, carryOf, safeShr, Nat.mod_eq_of_lt hlo, Nat.mod_eq_of_lt hhi]

/-- Settles O10: an UPDATE without a fault is the append, which writes the counter, `ACC` and `PEND` only. -/
theorem updateCountsBytes : Obligations.UpdateCountsBytes := by
  intro s hc hf ha hspan
  refine ⟨_, exec_update_ok hc hf ha hspan, ?_, ?_, ha, rfl, rfl, rfl, rfl, rfl, rfl, rfl, rfl, fun _ => rfl⟩
  · simp [counterAdd]
  · simp [counterAdd, carryOf, safeShr]

/-- Settles O11: the law of the byte counter, at the counter words that UPDATE adds to. -/
theorem counterLaw : Obligations.CounterLaw := by
  intro s h hf ha hspan
  refine ⟨_, exec_update_ok h.cfg hf ha hspan, ?_⟩
  have hcnt := counterAdd_cnt s.cfg s.cntHi s.lenOperand h.cntLo
  simpa [State.cnt] using hcnt

/-! ### Buffering and the block scheduler -/

/-- `PEND` has room for the valid bytes (R31, R32). -/
theorem length_take_valid {s : State} (h : s.Wf) : (s.pend.take s.valid).length = s.valid := by
  rw [List.length_take, h.pendLength, Nat.min_eq_left (valid_lt h).le]

/-- An UPDATE that does not fill a block issues nothing and leaves its input behind the pending bytes (R118). -/
theorem append_of_no_block {s : State} (h : s.Wf) (hlt : s.valid + s.lenOperand < s.cfg.B) :
    (s.append s.input).forgetTail.acc = s.acc ∧ (s.append s.input).forgetTail.valid = s.valid + s.lenOperand ∧
      (s.append s.input).forgetTail.pend.take (s.valid + s.lenOperand) = s.pend.take s.valid ++ s.input := by
  obtain ⟨hacc, hvalid, hpend⟩ := append_spec h
  rw [Nat.mod_eq_of_lt hlt] at hvalid
  rw [hvalid, Nat.div_eq_of_lt hlt, Nat.zero_mul, List.drop_zero] at hpend
  refine ⟨hacc.trans (compress_short ?_), hvalid, hpend⟩
  rwa [List.length_append, length_take_valid h, length_input]

/-- To the Host, an UPDATE that does not fault changes nothing (R46, R113). -/
theorem sameToHost_append (s : State) (I : List Byte) : SameToHost (s.append I).forgetTail s :=
  ⟨rfl, rfl, rfl, rfl, rfl, rfl, rfl, rfl, rfl, rfl⟩

/-- Settles O14: no byte fills no block, so `ACC` and the pending bytes stay, and the counter adds 0. -/
theorem updateOfNoBytes : Obligations.UpdateOfNoBytes := by
  refine fun s h hf hlen => ⟨fun ha => ?_, fun ha => exec_update_notActive hf ha⟩
  have hin : s.input = [] := List.length_eq_zero_iff.1 (by rw [length_input, hlen])
  have hcnt : counterAdd s.cfg s.cntLo s.cntHi s.input.length = (s.cntLo, s.cntHi) := by
    rw [hin]; exact counterAdd_zero h.cntLo h.cntHi
  obtain ⟨hacc, hvalid, hpend⟩ := append_of_no_block h (by rw [hlen]; exact valid_lt h)
  rw [hlen] at hvalid hpend
  exact ⟨_, exec_update_ok h.cfg hf ha (.inl hlen), congrArg Prod.fst hcnt, congrArg Prod.snd hcnt, hacc, hvalid,
    (slices_of_take_eq_append hpend (length_take_valid h)).1.trans (slice_zero ..).symm, sameToHost_append s s.input⟩

/-- Settles O15: the input that fills no block stands behind the pending bytes. -/
theorem partialTopUp : Obligations.PartialTopUp := by
  intro s h hf ha hspan _ hlt
  obtain ⟨hacc, -, hpend⟩ := append_of_no_block h hlt
  obtain ⟨hold, hnew⟩ := slices_of_take_eq_append hpend (length_take_valid h)
  exact ⟨_, exec_update_ok h.cfg hf ha hspan, hacc, hold.trans (slice_zero ..).symm, hnew⟩

/-- Settles O16: the pending bytes and the first `B - num` input bytes are the first block of what UPDATE takes in, and
the bytes after the last whole block are all input bytes. -/
theorem completingTopUp : Obligations.CompletingTopUp := by
  intro s h hf ha hspan _ hge
  have hv := valid_lt h
  have hpl := length_take_valid h
  obtain ⟨hacc, hvalid, hpend⟩ := append_spec h
  refine ⟨_, exec_update_ok h.cfg hf ha hspan, ?_, ?_, ?_⟩
  · have hblock : (s.pend.take s.valid ++ s.input.take (s.cfg.B - s.valid)).length = s.cfg.B := by
      rw [List.length_append, hpl, List.length_take, length_input]; omega
    rw [hacc, slice_zero, slice_zero, slice_to_end (length_input s).le, ← issue,
      ← compress_cons (wf_sizes h.cfg).B_pos hblock, List.append_assoc, List.take_append_drop]
  · rw [hvalid, ← Nat.add_mod_right (s.lenOperand - _)]
    congr 1; omega
  · have hdiv := Nat.div_add_mod' (s.valid + s.lenOperand) s.cfg.B
    have hone : s.cfg.B ≤ (s.valid + s.lenOperand) / s.cfg.B * s.cfg.B :=
      Nat.le_mul_of_pos_left _ (Nat.div_pos hge (wf_sizes h.cfg).B_pos)
    rw [slice_zero, hpend, hvalid, slice_to_end (length_input s).le, List.drop_append,
      List.drop_eq_nil_of_le (by omega), List.nil_append, hpl]
    congr 1; omega

/-- Settles O17: with no byte pending, what UPDATE takes in is its input. -/
theorem blocksThenRemainder : Obligations.BlocksThenRemainder := by
  intro s h hf ha hspan hv
  obtain ⟨hacc, hvalid, hpend⟩ := append_spec h
  rw [hv, Nat.zero_add] at hvalid
  rw [hv, List.take_zero, List.nil_append] at hacc hpend
  rw [Nat.zero_add] at hpend
  refine ⟨_, exec_update_ok h.cfg hf ha hspan, ?_, hvalid, ?_⟩
  · rw [hacc, compress_range, length_input]
  · rw [slice_zero, hpend, slice_to_end (length_input s).le]

/-! ### The stream that UPDATE extends -/

/-- The pending bytes and the input are the extended stream from its last whole block on (R123). -/
theorem State.Holds.slice_input {s : State} {S : List Byte} (h : s.Wf) (hS : s.Holds S) (a b : Nat) :
    slice (S.length - S.length % s.cfg.B + a) (S.length - S.length % s.cfg.B + b) (S ++ s.input)
      = slice a b (s.pend.take s.valid ++ s.input) := by
  obtain ⟨P, k, hsplit, -, -⟩ := hS.split
  have hlen : S.length - S.length % s.cfg.B = P.length := by
    have hsum := congrArg List.length hsplit
    rw [List.length_append, length_take_valid h] at hsum
    rw [← hS.fill]; omega
  have hcut : S ++ s.input = P ++ (s.pend.take s.valid ++ s.input) := by rw [← List.append_assoc, ← hsplit]
  rw [hlen, hcut, slice_append_shift]

/-- Settles O18: the state after UPDATE holds the extended stream, and the blocks of the pending bytes and the input are
the blocks of that stream after those issued before. -/
theorem updateExtendsStream : Obligations.UpdateExtendsStream := by
  intro s S h hS hspan
  obtain ⟨hacc, hvalid, -⟩ := append_spec h
  refine ⟨_, exec_update_ok h.cfg hS.running hS.active hspan, hS.append h, ?_, ?_⟩
  · rw [hvalid, hS.fill, Nat.mod_add_mod]
  · rw [hacc, compress_range, List.length_append, length_take_valid h, length_input, ← hS.fill]
    simp only [hS.fill, hS.slice_input h]

end Sys2Proof.Machine
end

section
/-! SUPPORT. Chunking invariance (95_test_vectors.md P1): a stream program that ends well had valid spans only, because
a fault lasts as long as the Host does not reset (R178, R183), so its digest is that of the concatenated bytes. -/

namespace Sys2Proof.Machine

/-! ### A fault lasts to the end of a run without reset -/

/-- The accesses to come are the Host's: no access adds one (log 8). -/
theorem hostAccess_keeps_script {x : HostAccess} {s t : State} (h : hostAccess x s = .next t) :
    t.script = s.script := by
  rcases hostAccess_cases h with
    ⟨v, -, hcmd⟩ | ⟨r, v, -, -, rfl | rfl | rfl | rfl⟩ | ⟨v, -, rfl⟩ | ⟨a, b, -, -, rfl⟩ | ⟨-, rfl⟩
  · rcases commandWrite_cases hcmd with ⟨-, rfl⟩ | ⟨-, ⟨e, -, rfl⟩ | ⟨i, -, hexec⟩⟩
    · rfl
    · rfl
    · exact (exec_keeps_host hexec).2
  all_goals rfl

/-- The state is faulted and the Host has no reset to make, the only way out (R183). -/
def State.StuckFaulted (s : State) : Prop := s.fault = true ∧ HostAccess.reset ∉ s.script

theorem step_keeps_stuckFaulted {s t : State} (h : s.StuckFaulted) (hstep : step s = .next t) : t.StuckFaulted := by
  obtain ⟨hf, hreset⟩ := h
  constructor
  · rcases step_engine_cases hstep with ⟨v, rest, -, hcmd⟩ | ⟨rest, hs, -⟩ | ⟨hsame, -⟩
    · rcases commandWrite_cases hcmd with ⟨-, rfl⟩ | ⟨hf', -⟩
      · exact hf
      · exact absurd (hf.symm.trans hf') (by decide)
    · simp [hs] at hreset
    · exact hsame.fault.trans hf
  · obtain ⟨-, ⟨-, rfl⟩ | ⟨x, rest, hs, hx⟩⟩ := step_cases hstep
    · exact hreset
    · rw [hostAccess_keeps_script hx]
      exact fun hmem => hreset (hs ▸ List.mem_cons_of_mem x hmem)

theorem Runs.stuckFaulted {k : Nat} {s t : State} (hrun : Runs k s t) (h : s.StuckFaulted) : t.StuckFaulted := by
  induction k generalizing s with
  | zero => cases hrun; exact h
  | succ k ih =>
    obtain ⟨u, hstep, hrun⟩ := hrun
    exact ih hrun (step_keeps_stuckFaulted h hstep)

/-- A run that ends well passes no such state, and ends well from each state it passes. -/
theorem EndsWell.not_stuckFaulted {j k : Nat} {s u t : State} (hend : EndsWell (j + k) s t) (hrun : Runs j s u) :
    EndsWell k u t ∧ ¬u.StuckFaulted := by
  obtain ⟨hruns, hgood⟩ := hend
  obtain ⟨u', hfirst, hlast⟩ := hruns.split
  obtain rfl := hrun.unique hfirst
  exact ⟨⟨hlast, hgood⟩, fun hu => hgood (hlast.stuckFaulted hu).1⟩

/-! ### No access of a stream program is a reset -/

theorem reset_not_mem_updatePrograms (c : Config) (spans : List (BitVec 64 × BitVec 64)) :
    HostAccess.reset ∉ updatePrograms c spans := by
  simp [updatePrograms, updateProgram, issueCommand, Reg.put]

theorem reset_not_mem_finalizeProgram (c : Config) (dst : BitVec 64) : HostAccess.reset ∉ finalizeProgram c dst := by
  simp [finalizeProgram, issueCommand, Reg.put]

/-! ### A program that ends well had valid spans -/

section Lines

variable {c : Config} {m : Memory} {S : List Byte} {rest : List HostAccess} {s t : State}

/-- The state in which `update <src>, <len>` issues its UPDATE has the two operands of the line (R83, R90). -/
theorem Streaming.update_issued {src len : BitVec 64} (h : Streaming c m S (updateProgram c src len ++ rest) s) :
    ∃ u, Streaming c m S rest u ∧ (SpanOk c src len ↔ u.lenOperand = 0 ∨ u.InputSpanOk) ∧
      ∀ v, exec .update u = .next v → Runs 3 s v := by
  simp only [updateProgram, List.cons_append, List.nil_append] at h
  obtain ⟨hstep₁, h₁⟩ := h.put (by decide)
  obtain ⟨hstep₂, h₂⟩ := h₁.put (by decide)
  obtain ⟨hstep₃, h₃⟩ := h₂.issue
  refine ⟨_, h₃, ?_, fun v hexec => ⟨_, hstep₁, _, hstep₂, _, hstep₃.trans hexec, rfl⟩⟩
  generalize hu : State.withScript _ rest = u at h₃
  have hsrc : u.srcOperand = src.toNat % 2 ^ c.AW := by
    rw [← hu, ← h.cfg]; exact toNat_lowBits_mod (wf_widths h.wf.cfg).1 src
  have hlen : u.lenOperand = len.toNat % 2 ^ c.LW := by
    rw [← hu, ← h.cfg]; exact toNat_lowBits_mod (wf_widths h.wf.cfg).2 len
  rw [State.InputSpanOk, hsrc, hlen, h₃.cfg]
  rfl

/-- The state in which `finalize <dst>` issues its FINALIZE has the operand of the line (R83, R90). -/
theorem Streaming.finalize_issued {dst : BitVec 64} (h : Streaming c m S (finalizeProgram c dst) s) :
    ∃ u, Streaming c m S [] u ∧ u.dstOperand = dst.toNat % 2 ^ c.AW ∧
      ∀ v, exec .finalize u = .next v → Runs 2 s v := by
  obtain ⟨hstep₁, h₁⟩ := h.put (by decide)
  obtain ⟨hstep₂, h₂⟩ := h₁.issue
  refine ⟨_, h₂, ?_, fun v hexec => ⟨_, hstep₁, _, hstep₂.trans hexec, rfl⟩⟩
  rw [← h.cfg]
  exact toNat_lowBits_mod (wf_widths h.wf.cfg).1 dst

/-- An UPDATE line over an invalid span ends in a fault (R175). -/
theorem Streaming.spanOk_of_endsWell {src len : BitVec 64} {k : Nat}
    (h : Streaming c m S (updateProgram c src len ++ rest) s) (hreset : HostAccess.reset ∉ rest)
    (hend : EndsWell (3 + k) s t) : SpanOk c src len := by
  obtain ⟨u, hu, hspan, hrun⟩ := h.update_issued
  rw [hspan]
  by_contra hbad
  obtain ⟨hlen, hinvalid⟩ := not_or.1 hbad
  have hfault := exec_update_inputSpan hu.wf.cfg hu.holds.running hu.holds.active (Nat.pos_of_ne_zero hlen) hinvalid
  refine (hend.not_stuckFaulted (hrun _ hfault)).2 ⟨rfl, ?_⟩
  rwa [State.raiseFault_script, hu.script]

/-- UPDATE lines that a run passes on its way to a good end have valid spans, by induction on the lines. -/
theorem Streaming.spansOk_of_endsWell {spans : List (BitVec 64 × BitVec 64)} {k : Nat}
    (h : Streaming c m S (updatePrograms c spans ++ rest) s) (hreset : HostAccess.reset ∉ rest)
    (hend : EndsWell ((updatePrograms c spans).length + k) s t) : SpansOk c spans := by
  induction spans generalizing S s with
  | nil => exact List.forall_mem_nil _
  | cons p spans ih =>
    have hprogram : updatePrograms c (p :: spans) = updateProgram c p.1 p.2 ++ updatePrograms c spans := rfl
    rw [hprogram, List.append_assoc] at h
    rw [hprogram, List.length_append, Nat.add_assoc] at hend
    have hreset' : HostAccess.reset ∉ updatePrograms c spans ++ rest := fun hmem =>
      (List.mem_append.1 hmem).elim (reset_not_mem_updatePrograms c spans) hreset
    have hp := h.spanOk_of_endsWell hreset' hend
    obtain ⟨u, hfirst, hu⟩ := update_streaming h hp
    exact spansOk_cons.2 ⟨hp, ih hu (hend.not_stuckFaulted hfirst).1⟩

/-- A FINALIZE line over an invalid span ends in a fault (R176). -/
theorem Streaming.digestSpanOk_of_endsWell {dst : BitVec 64} (h : Streaming c m S (finalizeProgram c dst) s)
    (hend : EndsWell 2 s t) : dst.toNat % 2 ^ c.AW + c.H ≤ 2 ^ c.AW ∧
      ∀ k < c.H, c.writable.has (dst.toNat % 2 ^ c.AW + k) = true := by
  obtain ⟨u, hu, hdst, hrun⟩ := h.finalize_issued
  rw [← hdst, ← hu.cfg]
  by_contra hbad
  have hfault := exec_finalize_digestSpan hu.wf.cfg hu.holds.running hu.holds.active hbad
  obtain rfl := hend.1.unique (hrun _ hfault)
  exact hend.2 rfl

end Lines

/-! ### The digest of a program that ends well -/

/-- A stream program that ends well leaves the digest of the bytes of its spans at `dst`: its spans were valid, so its
run is that of `streamProgramHashes`. -/
theorem EndsWell.digestAt {s t : State} {spans : List (BitVec 64 × BitVec 64)} {dst : BitVec 64}
    (hend : EndsWell s.script.length s t) (hwf : s.Wf) (hf : s.fault = false)
    (hs : s.script = streamProgram s.cfg spans dst) :
    DigestAt s.cfg t.mem (dst.toNat % 2 ^ s.cfg.AW) (streamAcc s.cfg (spansBytes s.cfg s.mem spans)) := by
  obtain ⟨u, hinit, hu⟩ := init_streaming hwf hf hs
  have hlength : s.script.length = 1 + ((updatePrograms s.cfg spans).length + 2) := by
    rw [hs, streamProgram, List.length_cons, List.length_append, Nat.add_comm]; rfl
  have hend' := hlength ▸ hend
  have hafterInit := (hend'.not_stuckFaulted (j := 1) ⟨u, hinit, rfl⟩).1
  have hspans := hu.spansOk_of_endsWell (reset_not_mem_finalizeProgram s.cfg dst) hafterInit
  obtain ⟨v, hupdates, hv⟩ := updates_streaming hspans hu
  obtain ⟨hdst, hwritable⟩ := hv.digestSpanOk_of_endsWell (hafterInit.not_stuckFaulted hupdates).1
  obtain ⟨t', hend'', -, -, hdigest, -⟩ := streamProgramHashes s spans dst hwf hf hs hspans hdst hwritable
  rwa [hend.1.unique hend''.1]

/-- Byte `k` of a digest is byte `k mod W` of word `k / W` (R149). -/
theorem DigestAt.read {c : Config} (hz : Sizes c) {m : Memory} {dst k : Nat} {acc : List Word}
    (h : DigestAt c m dst acc) (hk : k < c.H) :
    m.read (dst + k) = (serWord c (acc.getD (k / c.W) 0)).getD (k % c.W) 0 := by
  rw [← h (k / c.W) (Nat.div_lt_div_of_lt_of_dvd hz.W_dvd_H hk) (k % c.W) (Nat.mod_lt _ hz.W_pos), Nat.add_assoc,
    Nat.div_add_mod']

/-- Settles O53: either run leaves the digest of its bytes, and the bytes are the same. -/
theorem chunkingInvariance : Obligations.ChunkingInvariance := by
  intro s s' t t' spans spans' dst dst' hwf hwf' hcfg hf hf' hs hs' hbytes hend hend' k hk
  have hdigest := hend.digestAt hwf hf hs
  have hdigest' := hend'.digestAt hwf' hf' hs'
  rw [← hbytes, ← hcfg] at hdigest'
  rw [hdigest.read (wf_sizes hwf.cfg) hk, hdigest'.read (wf_sizes hwf.cfg) hk]

end Sys2Proof.Machine
end

section
/-! SUPPORT. FINALIZE (42_finalize.md R140 to R154): completion, the bit count, the final block or blocks, the layouts
of the length field, and the padded message with its blocks. -/

namespace Sys2Proof.Machine

/-! ### Completion and the bit count -/

/-- Settles O19: a FINALIZE without a fault is the write of the `H` digest bytes and then `consume`, which leaves
memory and every register that the Host sees but `LIFECYCLE`. -/
theorem finalizeWritesDigest : Obligations.FinalizeWritesDigest := fun _ h hf ha hspan =>
  ⟨_, exec_finalize_ok h.cfg hf ha hspan, rfl, digestAt_write (wf_sizes h.cfg) h.memForm _ _,
    fun _ hout => writeDigest_read_outside h.cfg hout, rfl, rfl, rfl, rfl, rfl, rfl, rfl, rfl⟩

/-- A word has a byte at least, so the three bits that `8 * CNT` carries fit in one (R10, R141). -/
theorem Sizes.three_le_wb {c : Config} (h : Sizes c) : 3 ≤ c.wb := by
  have := h.W_pos
  rw [Config.wb]; omega

/-- The bit-count words of a state are the low and the high word of `8 * CNT` (R142). -/
theorem bitCount_cnt {s : State} (h : Sizes s.cfg) :
    bitCount s.cfg s.cntLo s.cntHi =
      (8 * s.cnt % 2 ^ (2 * s.cfg.wb) % 2 ^ s.cfg.wb, 8 * s.cnt % 2 ^ (2 * s.cfg.wb) / 2 ^ s.cfg.wb) :=
  bitCount_eq h.three_le_wb s.cntLo s.cntHi

/-- Settles O20: the two words are remainder and quotient by `2^wb` of a number below `2^(2*wb)`; in a state that holds
a stream the counter is the stream's length modulo `2^(2*wb)`. -/
theorem bitCountLaw : Obligations.BitCountLaw := by
  intro s h
  rw [bitCount_cnt (wf_sizes h.cfg)]
  have hlaw := Nat.div_add_mod' (8 * s.cnt % 2 ^ (2 * s.cfg.wb)) (2 ^ s.cfg.wb)
  have hlt : 8 * s.cnt % 2 ^ (2 * s.cfg.wb) < 2 ^ s.cfg.wb * 2 ^ s.cfg.wb := by
    rw [← Nat.pow_add, ← Nat.two_mul]
    exact Nat.mod_lt _ (Nat.two_pow_pos _)
  refine ⟨hlaw, Nat.mod_lt _ (Nat.two_pow_pos _), Nat.div_lt_of_lt_mul hlt, fun S hS => hlaw.trans ?_⟩
  rw [hS.count, Nat.mul_mod_mod]

/-! ### The final block or blocks -/

/-- The length bytes that FINALIZE writes are the length field of the counter (R142, R146, R147). -/
theorem lengthBytes_bitCount {s : State} (h : Sizes s.cfg) :
    lengthBytes s.cfg (bitCount s.cfg s.cntLo s.cntHi) = lengthField s.cfg s.cnt := by
  rw [bitCount_cnt h]; rfl

theorem zeros_add (m n : Nat) : zeros (m + n) = zeros m ++ zeros n := List.replicate_add m n _

/-- One final block is the whole of what FINALIZE folds into `ACC` (R144, R148). -/
theorem finalAcc_one {s : State} (h : s.Wf) (hfit : s.valid + 1 ≤ s.cfg.lenField) :
    s.finalAcc = s.cfg.applyT s.acc (wordView s.cfg (slice 0 s.valid s.pend ++ [0x80]
      ++ zeros (s.cfg.lenField - (s.valid + 1)) ++ lengthField s.cfg s.cnt)) := by
  have hz := wf_sizes h.cfg
  have hL := hz.lenField_add
  rw [finalAcc_eq hz h.pendLength, if_pos hfit, lengthBytes_bitCount hz, slice_zero, compress_one hz.B_pos]
  simp only [List.length_append, length_take_valid h, List.length_singleton, length_zeros, length_lengthField]
  omega

/-- The first of two final blocks ends after the zeros that fill `PEND`, the second one holds the other zeros and the
length field (R145, R148). -/
theorem finalAcc_two {s : State} (h : s.Wf) (hfull : s.cfg.lenField < s.valid + 1) :
    s.finalAcc = s.cfg.applyT
      (s.cfg.applyT s.acc (wordView s.cfg
        (slice 0 s.valid s.pend ++ [0x80] ++ zeros (s.cfg.B - (s.valid + 1)))))
      (wordView s.cfg (zeros s.cfg.lenField ++ lengthField s.cfg s.cnt)) := by
  have hz := wf_sizes h.cfg
  have hL := hz.lenField_add
  have hv := valid_lt h
  have hfirst : (s.pend.take s.valid ++ [0x80] ++ zeros (s.cfg.B - (s.valid + 1))).length = s.cfg.B := by
    simp only [List.length_append, length_take_valid h, List.length_singleton, length_zeros]
    omega
  have hsecond : (zeros s.cfg.lenField ++ lengthField s.cfg s.cnt).length = s.cfg.B := by
    rw [List.length_append, length_zeros, length_lengthField, hL]
  rw [finalAcc_eq hz h.pendLength, if_neg (by omega), lengthBytes_bitCount hz, slice_zero, zeros_add,
    ← List.append_assoc _ (zeros _) (zeros _), List.append_assoc _ (zeros _) (lengthField _ _),
    compress_cons hz.B_pos hfirst, compress_one hz.B_pos _ hsecond, issue]

/-- Settles O21: the digest is that of the accumulator after the one final block. -/
theorem oneFinalBlock : Obligations.OneFinalBlock := by
  intro s h hf ha hspan hfit
  obtain ⟨t, hexec, -, hdigest, -⟩ := finalizeWritesDigest s h hf ha hspan
  exact ⟨t, hexec, finalAcc_one h hfit ▸ hdigest⟩

/-- Settles O22: the digest is that of the accumulator after the two final blocks; when `B = 2*W` no byte is before the
length field, so the pad byte never fits. -/
theorem twoFinalBlocks : Obligations.TwoFinalBlocks := by
  intro s h hf ha hspan
  constructor
  · intro hfull
    obtain ⟨t, hexec, -, hdigest, -⟩ := finalizeWritesDigest s h hf ha hspan
    exact ⟨t, hexec, finalAcc_two h hfull ▸ hdigest⟩
  · intro hB
    rw [Config.lenField]; omega

/-! ### The slots of the length field -/

/-- Both slots are word slots of the block (R146). -/
theorem Sizes.slots_lt {c : Config} (h : Sizes c) : c.loSlot < c.nw ∧ c.hiSlot < c.nw := by
  have := h.nw_ge
  have := h.offset_le
  rw [Config.loSlot, Config.hiSlot]; omega

/-- The bytes before the length field (R146). -/
theorem length_take_lenField {c : Config} (h : Sizes c) {blk : List Byte} (hblk : blk.length = c.B) :
    (blk.take c.lenField).length = c.lenField := by
  have := h.lenField_add
  rw [List.length_take]; omega

/-- Two words after a prefix, as slices. -/
theorem slices_of_two_words {α : Type} {X x y : List α} {n : Nat} (hx : x.length = n) (hy : y.length = n) :
    slice X.length (X.length + n) (X ++ (x ++ y)) = x ∧
      slice (X.length + n) (X.length + n + n) (X ++ (x ++ y)) = y := by
  have hall : (x ++ y).take (n + n) = x ++ y := by
    rw [List.take_of_length_le]
    rw [List.length_append, hx, hy]
  have hwords := slices_of_take_eq_append hall hx
  rwa [← slice_append_shift 0 n X, ← slice_append_shift n (n + n) X, Nat.add_zero, ← Nat.add_assoc] at hwords

/-- Each length word stands in its slot, whatever the other one is (R146). -/
theorem slice_slot_putLength {c : Config} (h : Sizes c) (lo hi : Word) {blk : List Byte} (hblk : blk.length = c.B) :
    slice (c.loSlot * c.W) ((c.loSlot + 1) * c.W) (putLength c (lo, hi) blk) = serWord c lo ∧
      slice (c.hiSlot * c.W) ((c.hiSlot + 1) * c.W) (putLength c (lo, hi) blk) = serWord c hi := by
  have hX := length_take_lenField h hblk
  have hwords (x y : Word) := hX ▸ slices_of_two_words (X := blk.take c.lenField) (length_serWord c x)
    (length_serWord c y)
  obtain ⟨h0, h1⟩ := h.slots
  rw [putLength_eq h _ hblk, lengthBytes, Nat.succ_mul, Nat.succ_mul]
  rcases Nat.le_one_iff_eq_zero_or_eq_one.1 h.offset_le with ho | ho
  · obtain ⟨hlo, hhi⟩ := h0 ho
    rw [if_pos ho, hlo, hhi]
    exact hwords lo hi
  · obtain ⟨hhi, hlo⟩ := h1 ho
    rw [if_neg (by omega), hlo, hhi]
    exact (hwords hi lo).symm

/-- Settles O23: the block after the length field is its bytes before `L` and the two words, in the order that `OFFSET`
gives. -/
theorem lengthFieldSlots : Obligations.LengthFieldSlots := by
  intro c lo hi blk hc hblk
  have hz := wf_sizes hc
  have hL := hz.lenField_add
  have hX := length_take_lenField hz hblk
  have hput := putLength_eq hz (lo, hi) hblk
  obtain ⟨hlo, hhi⟩ := slice_slot_putLength hz lo hi hblk
  refine ⟨?_, ?_, hlo, hhi, hz.slots⟩
  · rw [hput, List.length_append, hX, length_lengthBytes, hL]
  · rw [hput, slice_zero, slice_zero, List.take_left' hX]

/-! ### The length field as one number -/

/-- Byte `i` of a number, low byte first. -/
theorem getD_leBytes {n i : Nat} (v : Nat) (hi : i < n) :
    (leBytes n v).getD i 0 = BitVec.ofNat 8 (v / 2 ^ (8 * i)) := by
  rw [leBytes_eq_map]
  apply BitVec.eq_of_toNat_eq
  simp [hi, Nat.shiftRight_eq_div_pow]

@[simp] theorem length_leBytes (n v : Nat) : (leBytes n v).length = n := by
  rw [leBytes_eq_map, List.length_map, List.length_range]

/-- Byte `i` of a number, high byte first. -/
theorem getD_reverse_leBytes {n i : Nat} (v : Nat) (hi : i < n) :
    (leBytes n v).reverse.getD i 0 = BitVec.ofNat 8 (v / 2 ^ (8 * (n - 1 - i))) := by
  rw [List.getD_reverse i (by rwa [length_leBytes]), length_leBytes, getD_leBytes v (by omega)]

/-- Low byte first, the bytes of a number and then those of another are the bytes of one number, in which the second is
shifted past the first. -/
theorem leBytes_append {n x : Nat} (m y : Nat) (hx : x < 2 ^ (8 * n)) :
    leBytes n x ++ leBytes m y = leBytes (n + m) (y * 2 ^ (8 * n) + x) := by
  induction n generalizing x with
  | zero =>
    obtain rfl : x = 0 := by simpa using hx
    simp [leBytes]
  | succ n ih =>
    have hpow : 2 ^ (8 * (n + 1)) = 256 * 2 ^ (8 * n) := by rw [Nat.mul_succ, Nat.pow_add, Nat.mul_comm]
    have hsum : y * 2 ^ (8 * (n + 1)) + x = 256 * (y * 2 ^ (8 * n)) + x := by rw [hpow]; ring
    have hlow : BitVec.ofNat 8 (y * 2 ^ (8 * (n + 1)) + x) = BitVec.ofNat 8 x := by
      apply BitVec.eq_of_toNat_eq
      rw [hsum, BitVec.toNat_ofNat, BitVec.toNat_ofNat, Nat.mul_add_mod]
    rw [leBytes, List.cons_append, ih (Nat.div_lt_of_lt_mul (hpow ▸ hx)), Nat.add_right_comm, leBytes, hlow, hsum,
      Nat.mul_add_div (by decide)]

/-- In `LE` two words in a row are one number whose low word is the first (R69, R147). -/
theorem serWord_append_le {c : Config} (hc : c.order = .le) {x : Word} (hx : x < 2 ^ c.wb) (y : Word) :
    serWord c x ++ serWord c y = leBytes (2 * c.W) (y * 2 ^ c.wb + x) := by
  rw [serWord_le hc, serWord_le hc, leBytes_append _ _ hx, Nat.two_mul, Config.wb]

/-- In `BE` two words in a row are one number whose low word is the second (R69, R147). -/
theorem serWord_append_be {c : Config} (hc : c.order = .be) (x : Word) {y : Word} (hy : y < 2 ^ c.wb) :
    serWord c x ++ serWord c y = (leBytes (2 * c.W) (x * 2 ^ c.wb + y)).reverse := by
  rw [serWord_be hc, serWord_be hc, ← List.reverse_append, leBytes_append _ _ hy, Nat.two_mul, Config.wb]

/-- A word slot that holds a serialised word reads back as that word (R70, R147). -/
theorem wordView_getD_of_slice {c : Config} {j : Nat} {v : Word} {blk : List Byte} (hj : j < c.nw)
    (hv : v < 2 ^ c.wb) (hslice : slice (j * c.W) ((j + 1) * c.W) blk = serWord c v) :
    (wordView c blk).getD j 0 = v := by
  have hget : (wordView c blk).getD j 0 = asmWord c (slice (j * c.W) ((j + 1) * c.W) blk) := by
    simp [wordView, hj]
  rw [hget, hslice, asmWord_eq_iff hv (length_serWord c v)]

/-- Settles O24: each slot reads back by the inverse of serialising; the bytes from `L` are two serialised words in a
row, which `ORDER` and `OFFSET` make the one number or the other. -/
theorem lengthFieldReadsBack : Obligations.LengthFieldReadsBack := by
  intro c lo hi blk hc hblk hlo hhi
  have hz := wf_sizes hc
  have hX := length_take_lenField hz hblk
  obtain ⟨hsliceLo, hsliceHi⟩ := slice_slot_putLength hz lo hi hblk
  obtain ⟨hslotLo, hslotHi⟩ := hz.slots_lt
  refine ⟨wordView_getD_of_slice hslotLo hlo hsliceLo, wordView_getD_of_slice hslotHi hhi hsliceHi, fun i hi' => ?_⟩
  have hbyte : (putLength c (lo, hi) blk).getD (c.lenField + i) 0 = (lengthBytes c (lo, hi)).getD i 0 := by
    rw [putLength_eq hz _ hblk, List.getD_append_right _ _ _ _ (by omega), hX, Nat.add_sub_cancel_left]
  rw [hbyte, lengthBytes]
  rcases Nat.le_one_iff_eq_zero_or_eq_one.1 hz.offset_le with ho | ho
  · cases hord : c.order with
    | le => rw [if_pos ho, serWord_append_le hord hlo, getD_leBytes _ hi']; simp [ho]
    | be => rw [if_pos ho, serWord_append_be hord lo hhi, getD_reverse_leBytes _ hi']; simp [ho]
  · cases hord : c.order with
    | le => rw [if_neg (by omega), serWord_append_le hord hhi, getD_leBytes _ hi']; simp [ho]
    | be => rw [if_neg (by omega), serWord_append_be hord hi hlo, getD_reverse_leBytes _ hi']; simp [ho]

/-! ### The padded message and its blocks -/

@[simp] theorem length_blocksOf (c : Config) (S : List Byte) : (blocksOf c S).length = S.length / c.B := by
  simp [blocksOf]

theorem blocksOf_one {c : Config} (hB : 0 < c.B) {X : List Byte} (hX : X.length = c.B) : blocksOf c X = [X] := by
  have hcons := blocksOf_cons hB hX (Y := [])
  rwa [List.append_nil, blocksOf_short (S := []) (by simpa using hB)] at hcons

/-- The whole blocks of a sequence are the first blocks of whatever it begins. -/
theorem take_blocksOf_append (c : Config) (X Y : List Byte) :
    (blocksOf c (X ++ Y)).take (X.length / c.B) = blocksOf c X := by
  have hle : X.length / c.B ≤ (X ++ Y).length / c.B := Nat.div_le_div_right (by simp)
  rw [blocksOf, ← List.map_take, List.take_range, Nat.min_eq_left hle, blocksOf]
  refine List.map_congr_left fun i hi => slice_append_left ?_
  calc (i + 1) * c.B ≤ X.length / c.B * c.B := Nat.mul_le_mul_right _ (List.mem_range.1 hi)
    _ ≤ X.length := Nat.div_mul_le_self _ _

/-- Padding makes whole blocks: those of the message, and one more when the pad byte and the length field fit behind
the bytes left over, two more when they do not (R151, R152). -/
theorem padded_length_eq {c : Config} (h : Sizes c) (N : Nat) :
    N + 1 + zeroCount c N + 2 * c.W = (N / c.B + if N % c.B < c.lenField then 1 else 2) * c.B := by
  have hL := h.lenField_add
  have hr := Nat.mod_lt N h.B_pos
  have hN := Nat.div_add_mod' N c.B
  rw [zeroCount_eq h, Nat.add_mul]
  split
  · next hfit => rw [if_pos (Nat.lt_of_succ_le hfit)]; omega
  · next hfull => rw [if_neg (mt Nat.succ_le_of_lt hfull)]; omega

@[simp] theorem length_paddedMessage (c : Config) (S : List Byte) :
    (paddedMessage c S).length = S.length + 1 + zeroCount c S.length + 2 * c.W := by
  simp only [paddedMessage, List.length_append, List.length_singleton, length_zeros, length_lengthField]

/-- The zero count is a remainder modulo `B` (R151). -/
theorem zeroCount_lt {c : Config} (hB : 0 < c.B) (N : Nat) : zeroCount c N < c.B := by
  have := Int.emod_lt_of_pos ((c.lenField : Int) - ((N % c.B : Nat) : Int) - 1) (Int.natCast_pos.2 hB)
  rw [zeroCount]; omega

/-- `z` is the least zero count that makes whole blocks: any other one is the same modulo `B`, and `z < B` (R151). -/
theorem zeroCount_le {c : Config} (h : Sizes c) {N z : Nat} (hz : (N + 1 + z + 2 * c.W) % c.B = 0) :
    zeroCount c N ≤ z := by
  have hpad : (N + 1 + zeroCount c N + 2 * c.W) % c.B = 0 := by rw [padded_length_eq h, Nat.mul_mod_left]
  have hmod : zeroCount c N ≡ z [MOD c.B] :=
    Nat.ModEq.add_left_cancel' (N + 1) (Nat.ModEq.add_right_cancel' (2 * c.W) (hpad.trans hz.symm))
  calc zeroCount c N = z % c.B := (Nat.mod_eq_of_lt (zeroCount_lt h.B_pos N)).symm.trans hmod
    _ ≤ z := Nat.mod_le _ _

theorem serWord_zero (c : Config) : serWord c 0 = zeros c.W := by
  unfold serWord
  cases c.order <;> simp [zeros]

theorem lengthField_zero (c : Config) : lengthField c 0 = zeros (2 * c.W) := by
  simp [lengthField, serWord_zero, Nat.two_mul, zeros_add]

/-- The block or blocks of the padded empty message (R151). -/
theorem blocksOf_padded_nil {c : Config} (h : Sizes c) :
    (1 ≤ c.lenField → blocksOf c (paddedMessage c []) = [[0x80] ++ zeros (c.lenField - 1) ++ zeros (2 * c.W)]) ∧
      (c.lenField = 0 → blocksOf c (paddedMessage c []) = [[0x80] ++ zeros (c.B - 1), zeros (2 * c.W)]) := by
  have hL := h.lenField_add
  have hB := h.B_pos
  have hcount := zeroCount_eq h 0
  rw [Nat.zero_mod, Nat.zero_add] at hcount
  rw [paddedMessage, List.length_nil, lengthField_zero, hcount, List.nil_append]
  constructor
  · intro hfit
    rw [if_pos hfit]
    exact blocksOf_one hB (by simp; omega)
  · intro hzero
    rw [if_neg (by omega), hzero, Nat.add_zero, blocksOf_cons hB (by simp; omega), blocksOf_one hB (by simp; omega)]

/-- Settles O26: FINALIZE writes the digest of its final accumulator, which is that of the padded stream; the padded
length is a multiple of `B`, and so determines the zero count modulo `B`. -/
theorem finalizeHashesPaddedStream : Obligations.FinalizeHashesPaddedStream := by
  refine ⟨fun s S h hS hspan => ?_, fun c N hc => ?_, fun c hc => blocksOf_padded_nil (wf_sizes hc)⟩
  · obtain ⟨t, hexec, hlife, hdigest, hframe, -, hfault, -⟩ := finalizeWritesDigest s h hS.running hS.active hspan
    exact ⟨t, hexec, hlife, hfault.trans hS.running, hS.finalAcc_eq_streamAcc h ▸ hdigest, hframe⟩
  · exact ⟨by rw [padded_length_eq (wf_sizes hc), Nat.mul_mod_left], fun z => zeroCount_le (wf_sizes hc)⟩

/-! ### How many blocks are issued -/

/-- The blocks of the padded message: those of the message, and one or two final ones (R152). -/
theorem length_blocksOf_padded {c : Config} (h : Sizes c) (S : List Byte) :
    (blocksOf c (paddedMessage c S)).length
      = S.length / c.B + if S.length % c.B < c.lenField then 1 else 2 := by
  rw [length_blocksOf, length_paddedMessage, padded_length_eq h, Nat.mul_div_cancel _ h.B_pos]

/-- The first blocks of the padded message are those of the message (R152). -/
theorem take_blocksOf_padded (c : Config) (S : List Byte) :
    (blocksOf c (paddedMessage c S)).take (S.length / c.B) = blocksOf c S := by
  rw [paddedMessage, List.append_assoc, List.append_assoc, take_blocksOf_append]

/-- `ACC` is `F` over the stream that the state holds: its pending bytes make no block (R34, R49). -/
theorem State.Holds.acc_eq_compress {s : State} {S : List Byte} (h : s.Wf) (hS : s.Holds S) :
    s.acc = compress s.cfg s.cfg.iv S := by
  obtain ⟨P, k, hsplit, hP, hfold⟩ := hS.split
  rw [hfold, hsplit, compress_tail (wf_sizes h.cfg).B_pos hP]
  rw [length_take_valid h]; exact valid_lt h

/-- FINALIZE issues the blocks of the padded message after those of the stream (R148, R152). -/
theorem State.Holds.finalAcc_eq_foldl {s : State} {S : List Byte} (h : s.Wf) (hS : s.Holds S) :
    s.finalAcc = ((blocksOf s.cfg (paddedMessage s.cfg S)).drop (S.length / s.cfg.B)).foldl
      (fun a blk => s.cfg.applyT a (wordView s.cfg blk)) s.acc := by
  have hblocks := List.take_append_drop (S.length / s.cfg.B) (blocksOf s.cfg (paddedMessage s.cfg S))
  rw [take_blocksOf_padded] at hblocks
  rw [hS.finalAcc_eq_streamAcc h, streamAcc, compress, ← hblocks, List.foldl_append, ← compress,
    ← hS.acc_eq_compress h, hblocks]

/-- Settles O27: the blocks of the stream were folded before FINALIZE, and FINALIZE folds the blocks of the padded
message after them. -/
theorem issueCounts : Obligations.IssueCounts := by
  refine ⟨fun c S hc => ⟨by simp, ?_⟩, fun s S h hS => ?_⟩
  · rw [length_blocksOf_padded (wf_sizes hc), length_blocksOf]
  · have hz := wf_sizes h.cfg
    have hinside := take_blocksOf_padded s.cfg S
    have hfinal := hS.finalAcc_eq_foldl h
    refine ⟨hinside, ?_, ?_, hfinal, fun hspan => ?_⟩
    · rw [hinside, hS.acc_eq_compress h, compress]
    · rw [List.length_drop, length_blocksOf_padded hz, Nat.add_sub_cancel_left, hS.fill]
    · obtain ⟨t, hexec, hlife, hdigest, -⟩ := finalizeWritesDigest s h hS.running hS.active hspan
      exact ⟨t, hexec, hlife, hfinal ▸ hdigest⟩

end Sys2Proof.Machine
end

section
/-! SUPPORT. Faults (60_exceptions.md R170 to R183): when each fault is raised, the order of the checks of a `CMD` write,
that a fault entry changes `FAULT` and `CAUSE` alone, and that a faulted engine stays as it is until reset. -/

namespace Sys2Proof.Machine

/-! ### When each fault is raised -/

theorem not_active_of_uninit_or_finalized {l : Lifecycle} (h : l = .uninit ∨ l = .finalized) : l ≠ .active := by
  rcases h with rfl | rfl <;> decide

/-- An input span is invalid when it wraps or leaves the readable set (R61, R175). -/
theorem not_inputSpanOk_iff {s : State} :
    ¬s.InputSpanOk ↔ 2 ^ s.cfg.AW < s.srcOperand + s.lenOperand ∨
      ∃ k < s.lenOperand, s.cfg.readable.has (s.srcOperand + k) = false := by
  rw [State.InputSpanOk, not_and_or]
  simp

/-- A digest span is invalid when it wraps or leaves the writable set (R63, R176). -/
theorem not_digestSpanOk_iff {s : State} :
    ¬s.DigestSpanOk ↔ 2 ^ s.cfg.AW < s.dstOperand + s.cfg.H ∨
      ∃ k < s.cfg.H, s.cfg.writable.has (s.dstOperand + k) = false := by
  rw [State.DigestSpanOk, not_and_or]
  simp

/-- Settles O29: the check of `LIFECYCLE` is the first that UPDATE and FINALIZE make, and INIT does not look at it. -/
theorem notActiveFault : Obligations.NotActiveFault := by
  refine ⟨fun s hf hl => ?_, fun s t hf h => ?_, rfl⟩
  · have ha := not_active_of_uninit_or_finalized hl
    exact ⟨exec_update_notActive hf ha, exec_finalize_notActive hf ha⟩
  · cases (execInit_running hf).symm.trans h
    exact hf

/-- Settles O30: the span test of UPDATE is R61's condition, which either cause breaks. -/
theorem inputSpanFault : Obligations.InputSpanFault :=
  ⟨fun _ hc hf ha hl hspan => exec_update_inputSpan hc hf ha hl (not_inputSpanOk_iff.2 hspan), rfl⟩

/-- Settles O31: the span test of FINALIZE is R63's condition, which either cause breaks. -/
theorem digestSpanFault : Obligations.DigestSpanFault :=
  ⟨fun _ hc hf ha hspan => exec_finalize_digestSpan hc hf ha (not_digestSpanOk_iff.2 hspan), rfl⟩

/-! ### The checks of a CMD write -/

theorem commandWrite_init {s : State} (hf : s.fault = false) : commandWrite 1 s = exec .init s :=
  commandWrite_ok hf (decode_encode .init)

theorem commandWrite_update {s : State} (hf : s.fault = false) : commandWrite 2 s = exec .update s :=
  commandWrite_ok hf (decode_encode .update)

theorem commandWrite_finalize {s : State} (hf : s.fault = false) : commandWrite 3 s = exec .finalize s :=
  commandWrite_ok hf (decode_encode .finalize)

/-- A `CMD` write is ignored while `FAULT = 1` (R87, R178). -/
theorem commandWrite_faulted (w : BitVec 32) {s : State} (hf : s.fault = true) : commandWrite w s = .next s :=
  unlessFaulted_faulted hf _

/-- Settles O32: each clause fixes the word, and then what the command answers is known from the checks before it. -/
theorem faultPriority : Obligations.FaultPriority := by
  intro c s hc
  obtain ⟨t, ht⟩ := commandWrite_answers c s
  have hnext : ∀ {u}, commandWrite c s = .next u → t = u := fun hu => Host.Outcome.next.inj (ht.symm.trans hu)
  refine ⟨t, ht, fun hf => hnext (commandWrite_faulted c hf), fun hf => ⟨?illegal, ?notActive, ?input, ?digest, ?ok⟩⟩
  case illegal =>
    rintro ⟨h1, h2, h3⟩
    exact hnext (exactlyThreeWordsAreLegal.2.2 c s hf h1 h2 h3)
  case notActive =>
    rintro (rfl | rfl) ha
    · exact hnext ((commandWrite_update hf).trans (exec_update_notActive hf ha))
    · exact hnext ((commandWrite_finalize hf).trans (exec_finalize_notActive hf ha))
  case input =>
    rintro rfl ha hl hspan
    exact hnext ((commandWrite_update hf).trans (exec_update_inputSpan hc hf ha hl hspan))
  case digest =>
    rintro rfl ha hspan
    exact hnext ((commandWrite_finalize hf).trans (exec_finalize_digestSpan hc hf ha hspan))
  case ok =>
    rintro (rfl | ⟨rfl, ha, hspan⟩ | ⟨rfl, ha, hspan⟩)
    · rw [hnext ((commandWrite_init hf).trans (execInit_running hf))]
      exact hf
    · rw [hnext ((commandWrite_update hf).trans (exec_update_ok hc hf ha hspan))]
      exact hf
    · rw [hnext ((commandWrite_finalize hf).trans (exec_finalize_ok hc hf ha hspan))]
      exact hf

/-- Settles O33: of all that a `CMD` write can do, only the fault entry sets `FAULT`. -/
theorem faultsArePrecise : Obligations.FaultsArePrecise := by
  intro c s t h hf ht
  rcases commandWrite_effect h with ⟨hf', -⟩ | ⟨-, ⟨k, hk, rfl⟩ | ⟨-, rfl⟩ | ⟨-, -, rfl⟩ | ⟨-, -, -, rfl⟩⟩
  · exact absurd (hf.symm.trans hf') (by decide)
  · exact ⟨rfl, hk⟩
  all_goals exact absurd (hf.symm.trans ht) (by decide)

/-- Settles O37: each path of each meaning ends in a next state. -/
theorem everyCommandAnswers : Obligations.EveryCommandAnswers := exec_answers

/-! ### A faulted engine -/

/-- Settles O34: the steps of the register accesses, none of which writes `FAULT`, `CAUSE` or memory. -/
theorem quiescentWhileFaulted : Obligations.QuiescentWhileFaulted := by
  refine fun s rest hc hf => ⟨fun v hs => ?cmd, step_get (r := .status) hc, fun r v hr hs => ?put, fun r _ hs => ?get⟩
  case cmd => exact ((commandRegister s rest hc).1 v hs).trans (commandWrite_faulted _ hf)
  case put =>
    rcases hr with rfl | rfl | rfl
    · exact ⟨_, step_put hc hs, rfl, hf, rfl, fun _ => rfl, nofun, nofun⟩
    · exact ⟨_, step_put hc hs, rfl, hf, rfl, nofun, fun _ => rfl, nofun⟩
    · exact ⟨_, step_put hc hs, rfl, hf, rfl, nofun, nofun, fun _ => rfl⟩
  case get =>
    refine ⟨_, step_get hc hs, rfl, hf, rfl, ?_, ?_, ?_⟩ <;>
      · rintro rfl
        rfl

/-- What a Host access can do to a faulted engine: reset it, or leave alone what a stream lives in and `CAUSE` (R178,
R183). -/
theorem hostAccess_faulted {x : HostAccess} {s t : State} (h : hostAccess x s = .next t) (hf : s.fault = true) :
    (x = .reset ∧ t = s.assertReset) ∨ (x ≠ .reset ∧ SameEngine s t ∧ t.cause = s.cause) := by
  rcases hostAccess_cases h with
    ⟨v, rfl, hcmd⟩ | ⟨r, v, -, rfl, rfl | rfl | rfl | rfl⟩ | ⟨v, hread, rfl⟩ | ⟨a, b, rfl, -, rfl⟩ | hreset
  · cases (commandWrite_faulted _ hf).symm.trans hcmd
    exact .inr ⟨nofun, ⟨rfl, rfl, rfl, rfl, rfl, rfl, rfl⟩, rfl⟩
  iterate 4 exact .inr ⟨nofun, ⟨rfl, rfl, rfl, rfl, rfl, rfl, rfl⟩, rfl⟩
  · refine .inr ⟨?_, ⟨rfl, rfl, rfl, rfl, rfl, rfl, rfl⟩, rfl⟩
    rcases hread with ⟨a, w, rfl⟩ | ⟨a, rfl⟩ <;> nofun
  · exact .inr ⟨nofun, ⟨rfl, rfl, rfl, rfl, rfl, rfl, rfl⟩, rfl⟩
  · exact .inl hreset

/-- Settles O36: the step is the Host's oldest access, and only a reset changes a faulted engine. -/
theorem onlyResetClearsFault : Obligations.OnlyResetClearsFault := by
  intro s t hstep hf
  obtain ⟨-, ⟨hs, rfl⟩ | ⟨x, rest, hs, hx⟩⟩ := step_cases hstep
  · exact ⟨by simp [hs], fun _ => ⟨hf, rfl, rfl, rfl, rfl, rfl, rfl⟩⟩
  · rw [hs, List.head?_cons]
    rcases hostAccess_faulted hx hf with ⟨rfl, rfl⟩ | ⟨hne, hst, hcause⟩
    · exact ⟨fun _ => ⟨rfl, rfl, rfl, rfl, rfl, rfl⟩, fun h => absurd rfl h⟩
    · exact ⟨fun h => absurd (Option.some.inj h) hne, fun _ =>
        ⟨hst.fault.trans hf, hcause, hst.lifecycle, hst.acc, hst.pend, hst.cntLo, hst.cntHi⟩⟩

end Sys2Proof.Machine
end

section
/-! SUPPORT. Reset (70_reset_and_hazards.md R200) and the engine after FINALIZE (R204): the obligations
about them. -/

namespace Sys2Proof.Machine

/-! ### After FINALIZE -/

/-- A FINALIZE that ends with `FAULT = 0` has written its digest, so it leaves the engine `FINALIZED` (R150). -/
theorem lifecycle_of_exec_finalize {s t : State} (h : exec .finalize s = .next t) (ht : t.fault = false) :
    t.lifecycle = .finalized := by
  rcases exec_cases h with ⟨hf, rfl⟩ | ⟨-, ⟨k, -, -, rfl⟩ | ⟨hi, -⟩ | ⟨hi, -⟩ | ⟨-, -, -, rfl⟩⟩
  · exact absurd (hf.symm.trans ht) (by decide)
  · simp at ht
  · cases hi
  · cases hi
  · rfl

/-- Settles O28: the engine is then `FINALIZED`, where UPDATE and FINALIZE fault (O29) and INIT is legal (R101). -/
theorem finalizedEngineNeedsInit : Obligations.FinalizedEngineNeedsInit := by
  intro s t _ hexec ht
  have hl : t.lifecycle = .finalized := lifecycle_of_exec_finalize hexec ht
  obtain ⟨hupdate, hfinalize⟩ := notActiveFault.1 t ht (.inr hl)
  exact ⟨hupdate, hfinalize, t.beginStream.forgetTail, execInit_running ht, rfl, ht⟩

/-! ### Reset -/

/-- `STATUS` reads 0 after reset, whatever the state before (R40, R200). -/
theorem status_assertReset (s : State) : s.assertReset.status = 0 := by
  rw [State.status, State.assertReset_lifecycle, State.assertReset_fault, State.assertReset_cause]
  decide

/-- The Host's reset, as a step (R200). -/
theorem step_reset {s : State} (hc : s.cfg.wf = true) {rest : List HostAccess} (hs : s.script = .reset :: rest) :
    step s = .next (s.withScript rest).assertReset :=
  step_of_script hc hs

/-- Settles O47: the step is `State.assertReset`, whose fields are R48's values and else those of the state before. -/
theorem resetSetsState : Obligations.ResetSetsState := fun _ _ hc hs =>
  ⟨_, step_reset hc hs, rfl, rfl, rfl, rfl, rfl, rfl, status_assertReset _, rfl, rfl, rfl⟩

end Sys2Proof.Machine
end
